-- ==== Sys2Proof/Word.lean ====
section
/-! DEFINITION. The word types of HHP-CORE (00_scope.md R9, R10): unsigned bit vectors of a stated width. -/

namespace Sys2Proof

/-- A byte is 8 bits (R10). -/
abbrev Byte := BitVec 8

/-- A 64-bit unsigned value: a key lane, the HashResult, a control word (R6, R48). -/
abbrev Word64 := BitVec 64

/-- A 32-bit unsigned value: the results of AsUInt32Low and AsUInt32High (R76, R77). -/
abbrev Word32 := BitVec 32

/-- The four key lanes `LANE[0..3]` (R23): entry `i` is `LANE[i]`. -/
abbrev Lanes := Vector Word64 4

end Sys2Proof
end

