-- ==== Sys2Proof/Config.lean ====
section
/-! DEFINITION. The fixed parameters of 00_scope.md R6 and the open ones of R7. What is open is an
opaque constant with no body: nothing can be proved of its value. -/

namespace Sys2Proof

/-- HASH_ALGORITHM (R7): the name of the reference `MIX` must be bit-compatible with. The source names
both and does not choose. -/
inductive HashAlgorithm where
  | highwayHash
  | highwayTreeHash
  deriving DecidableEq, Repr, Inhabited

/-- The plain-data parameters of the step relation (R7, 10_state.md R14). State carries them, so that one
State can be any instance; no step changes them (assumption 1). -/
structure Params where
  /-- ADDR_WIDTH: the width of a host-memory address, at least 1. -/
  addrWidth : Nat
  /-- LEN_WIDTH: the width of a view length field, at least 6. -/
  lenWidth : Nat
  /-- CAPABILITY: whether a bit-exact path for `MIX` is present (90_conflicts.md C3). -/
  capability : Bool
  /-- HASH_ALGORITHM. -/
  hashAlgorithm : HashAlgorithm
  deriving DecidableEq, Repr

/-- The bounds R7 puts on the two widths. -/
abbrev Params.wf (p : Params) : Prop := 1 ≤ p.addrWidth ∧ 6 ≤ p.lenWidth

/-- KEY_BYTES (R6). -/
abbrev Config.keyBytes : Nat := 32

/-- DEC_MAX_CHARS (R6): 2^64 - 1 has 20 decimal digits. -/
abbrev Config.decMaxChars : Nat := 20

/-- `MIX` (R7, 40_hashcore.md R69, R71): one total function of the lanes, the message and its length, for
the reference that HASH_ALGORITHM names. The spec gives no value and no other property of it. -/
opaque Config.mix : HashAlgorithm → Lanes → List Byte → Nat → Word64

/-- ADDR_WIDTH - 1 at reset (R7, OPEN). -/
opaque Config.addrWidthExtra : Nat

/-- LEN_WIDTH - 6 at reset (R7, OPEN). -/
opaque Config.lenWidthExtra : Nat

/-- CAPABILITY at reset (R7, OPEN). -/
opaque Config.capability : Bool

/-- HASH_ALGORITHM at reset (R7, OPEN). -/
opaque Config.hashAlgorithm : HashAlgorithm

/-- The parameters of the instance that State.reset describes: open but for their bounds. -/
def Config.params : Params where
  addrWidth := Config.addrWidthExtra + 1
  lenWidth := Config.lenWidthExtra + 6
  capability := Config.capability
  hashAlgorithm := Config.hashAlgorithm

end Sys2Proof
end

