-- ==== Sys2Proof/Syntax.lean ====
section
/-! DEFINITION. The five entry operations of spec/opcode_table.json (30_encoding.md R51). -/

namespace Sys2Proof

/-- One entry operation with its operands `kptr, klen, mptr, mlen` (R47, R58): plain unsigned numbers
(R49), whose widths WellFormed checks. -/
inductive Instr where
  /-- R85: the result as 8 little-endian bytes. -/
  | asBuffer (kptr klen mptr mlen : Nat)
  /-- R86: the result in decimal. -/
  | asString (kptr klen mptr mlen : Nat)
  /-- R87: the result as 16 nibble-swapped hex digits. -/
  | asHexString (kptr klen mptr mlen : Nat)
  /-- R88: the low 32 bits. -/
  | asUInt32Low (kptr klen mptr mlen : Nat)
  /-- R89: the high 32 bits. -/
  | asUInt32High (kptr klen mptr mlen : Nat)
  deriving DecidableEq, Repr

/-- `key_ptr`, the operand W1. -/
def Instr.keyPtr : Instr → Nat
  | .asBuffer k _ _ _ => k
  | .asString k _ _ _ => k
  | .asHexString k _ _ _ => k
  | .asUInt32Low k _ _ _ => k
  | .asUInt32High k _ _ _ => k

/-- `key_len`, the operand W2. -/
def Instr.keyLen : Instr → Nat
  | .asBuffer _ n _ _ => n
  | .asString _ n _ _ => n
  | .asHexString _ n _ _ => n
  | .asUInt32Low _ n _ _ => n
  | .asUInt32High _ n _ _ => n

/-- `msg_ptr`, the operand W3. -/
def Instr.msgPtr : Instr → Nat
  | .asBuffer _ _ m _ => m
  | .asString _ _ m _ => m
  | .asHexString _ _ m _ => m
  | .asUInt32Low _ _ m _ => m
  | .asUInt32High _ _ m _ => m

/-- `msg_len`, the operand W4. -/
def Instr.msgLen : Instr → Nat
  | .asBuffer _ _ _ n => n
  | .asString _ _ _ n => n
  | .asHexString _ _ _ n => n
  | .asUInt32Low _ _ _ n => n
  | .asUInt32High _ _ _ n => n

end Sys2Proof
end

