-- ==== Sys2Proof/WellFormed.lean ====
section
/-! DEFINITION. What makes an operation's operands fit their descriptor fields (30_encoding.md R47, R49):
a pointer has ADDR_WIDTH bits and a length has LEN_WIDTH bits. A key length other than 32 is well formed
(R52): the operation then reports InvalidKeyLength. -/

namespace Sys2Proof

/-- Every operand of `i` fits its field, `aw` and `lw` bits wide (R47). -/
def Instr.wellFormed (aw lw : Nat) (i : Instr) : Bool :=
  decide (i.keyPtr < 2 ^ aw) && decide (i.keyLen < 2 ^ lw) &&
    decide (i.msgPtr < 2 ^ aw) && decide (i.msgLen < 2 ^ lw)

end Sys2Proof
end

