-- ==== Sys2Proof/Decode.lean ====
section
/-! DEFINITION. The request descriptor, its latched form, the decoder and the encoder
(30_encoding.md R47 to R53). The decoder is total and rejects by name. -/

namespace Sys2Proof

/-- The descriptor a SUBMIT carries: the five fields W0 to W4 (R47). -/
structure Descriptor where
  /-- The control word: OP in bits 2:0, RSVD in bits 63:3 (R48). -/
  w0 : Word64
  /-- `key_ptr`, ADDR_WIDTH bits. -/
  w1 : Nat
  /-- `key_len`, LEN_WIDTH bits. -/
  w2 : Nat
  /-- `msg_ptr`, ADDR_WIDTH bits. -/
  w3 : Nat
  /-- `msg_len`, LEN_WIDTH bits. -/
  w4 : Nat
  deriving DecidableEq, Repr

/-- The contents of the request latch `REQ` (10_state.md R22). -/
structure Request where
  op : BitVec 3
  rsvd : BitVec 61
  keyPtr : Nat
  keyLen : Nat
  msgPtr : Nat
  msgLen : Nat
  deriving DecidableEq, Repr

/-- Why a descriptor is illegal (R52): the decoder's two rejections. Both give IllegalOperation (R91). -/
inductive Illegal where
  /-- A bit of W0[63:3] is set. -/
  | reservedBits (rsvd : BitVec 61)
  /-- OP is 101, 110 or 111. -/
  | unassignedOp (op : BitVec 3)
  deriving DecidableEq, Repr

/-- Every field of the descriptor fits its width (R47). The block's typed interface carries no other
(60_exceptions.md R93). -/
def Descriptor.fits (aw lw : Nat) (d : Descriptor) : Bool :=
  decide (d.w1 < 2 ^ aw) && decide (d.w2 < 2 ^ lw) &&
    decide (d.w3 < 2 ^ aw) && decide (d.w4 < 2 ^ lw)

/-- How SUBMIT copies a descriptor into `REQ`, field by field (42_entry_operations.md R81). -/
def Descriptor.latch (d : Descriptor) : Request where
  op := d.w0.extractLsb' 0 3
  rsvd := d.w0.extractLsb' 3 61
  keyPtr := d.w1
  keyLen := d.w2
  msgPtr := d.w3
  msgLen := d.w4

/-- The decoder: `Legal(REQ.op, REQ.rsvd)` and the operation it selects (R51, R52, R53). -/
def decode (r : Request) : Except Illegal Instr :=
  if r.rsvd = 0#61 then
    match r.op.toNat with
    | 0 => .ok (.asBuffer r.keyPtr r.keyLen r.msgPtr r.msgLen)
    | 1 => .ok (.asString r.keyPtr r.keyLen r.msgPtr r.msgLen)
    | 2 => .ok (.asHexString r.keyPtr r.keyLen r.msgPtr r.msgLen)
    | 3 => .ok (.asUInt32Low r.keyPtr r.keyLen r.msgPtr r.msgLen)
    | 4 => .ok (.asUInt32High r.keyPtr r.keyLen r.msgPtr r.msgLen)
    | _ => .error (.unassignedOp r.op)
  else .error (.reservedBits r.rsvd)

/-- The operation code of R51. -/
def Instr.opCode : Instr → BitVec 3
  | .asBuffer .. => 0b000#3
  | .asString .. => 0b001#3
  | .asHexString .. => 0b010#3
  | .asUInt32Low .. => 0b011#3
  | .asUInt32High .. => 0b100#3

/-- The encoder: W0 is OP with RSVD = 0, W1 to W4 are the operands (R48, R58). -/
def encode (i : Instr) : Descriptor where
  w0 := 0#61 ++ i.opCode
  w1 := i.keyPtr
  w2 := i.keyLen
  w3 := i.msgPtr
  w4 := i.msgLen

/-- The descriptor as one number, bit 0 the least significant bit of W0 and each later field's bits
counting on from the field before it (the numbering of spec/opcode_table.json). -/
def Descriptor.toBits (aw lw : Nat) (d : Descriptor) : Nat :=
  d.w0.toNat + 2 ^ 64 * (d.w1 + 2 ^ aw * (d.w2 + 2 ^ lw * (d.w3 + 2 ^ aw * d.w4)))

/-- The descriptor that a number holds in the numbering of `Descriptor.toBits`. -/
def Descriptor.ofBits (aw lw n : Nat) : Descriptor where
  w0 := BitVec.ofNat 64 n
  w1 := n / 2 ^ 64 % 2 ^ aw
  w2 := n / 2 ^ 64 / 2 ^ aw % 2 ^ lw
  w3 := n / 2 ^ 64 / 2 ^ aw / 2 ^ lw % 2 ^ aw
  w4 := n / 2 ^ 64 / 2 ^ aw / 2 ^ lw / 2 ^ aw % 2 ^ lw

/-- The bits of an operation's descriptor. -/
def encodeBits (aw lw : Nat) (i : Instr) : Nat := (encode i).toBits aw lw

/-- The operation a descriptor's bits select, or why none. -/
def decodeBits (aw lw n : Nat) : Except Illegal Instr := decode (Descriptor.ofBits aw lw n).latch

/-- The descriptor whose low `nbits` bits are `w` and whose other bits are 0, with the fields of the worked
instance, ADDR_WIDTH = LEN_WIDTH = 64 (R47). A table row has the 64 bits of W0, so W1 to W4 are 0 whatever
the widths (assumption 12). -/
def tableDescriptor (nbits w : Nat) : Descriptor := Descriptor.ofBits 64 64 (w % 2 ^ nbits)

/-- What the decoder reads from a word of spec/opcode_table.json. -/
def decodeTableWord (nbits w : Nat) : Option Instr :=
  match decode (tableDescriptor nbits w).latch with
  | .ok i => some i
  | .error _ => none

end Sys2Proof
end

