-- ==== Sys2Proof/Machine/State.lean ====
section
/-! DEFINITION. The state of one block instance (10_state.md R13) with the host's side of it (host memory,
the host's commands, what the host observed), the parameters it runs under, and the reasons a step stops. -/

namespace Sys2Proof.Machine

/-- `GATE`, the capability gate (R19). The value 3 is never held (93_implementation_defined.md I13). -/
inductive Gate where
  | uninit
  | ready
  | failed
  deriving DecidableEq, Repr

/-- The 2-bit code of `GATE` (R19). -/
def Gate.code : Gate → BitVec 2
  | .uninit => 0#2
  | .ready => 1#2
  | .failed => 2#2

/-- `PHASE` (R21). The value 3 is never held (I13). -/
inductive Phase where
  | idle
  | working
  | responding
  deriving DecidableEq, Repr

/-- The 2-bit code of `PHASE` (R21). -/
def Phase.code : Phase → BitVec 2
  | .idle => 0#2
  | .working => 1#2
  | .responding => 2#2

/-- `RESP.STATUS` (30_encoding.md R56). The code 3 is never produced. -/
inductive Status where
  | ok
  | invalidKeyLength
  | illegalOperation
  deriving DecidableEq, Repr

/-- The 2-bit status code (R56). -/
def Status.code : Status → BitVec 2
  | .ok => 0#2
  | .invalidKeyLength => 1#2
  | .illegalOperation => 2#2

/-- `RESP` (10_state.md R25, 30_encoding.md R54). A field that holds ⊥ is `none` (R55, R56). -/
structure Response where
  status : Status
  kind : Option (BitVec 3)
  len : Option (BitVec 5)
  data : Option (List Byte)
  u32 : Option Word32
  deriving DecidableEq, Repr

/-- The fields of `RESP` a host can read (10_state.md R18). -/
inductive RespField where
  | status
  | kind
  | len
  | data
  | u32
  deriving DecidableEq, Repr

/-- What a read of a `RESP` field delivers. -/
inductive FieldValue where
  | bits (n : Nat)
  | bytes (bs : List Byte)
  deriving DecidableEq, Repr

/-- The host's commands: the four of 30_encoding.md R57, and what the host does to its own memory and to
the read-only interface. -/
inductive Command where
  /-- RESET (70_reset_and_hazards.md R108). -/
  | reset
  /-- INIT (42_entry_operations.md R84). -/
  | init
  /-- SUBMIT d (R81). -/
  | submit (d : Descriptor)
  /-- TAKE (R83). -/
  | take
  /-- `.mem addr: b0 b1 ...` (30_encoding.md R58): a host write, which also admits the bytes (R29). -/
  | write (addr : Nat) (bytes : List Byte)
  /-- The host stops making `len` bytes from `addr` available (20_memory.md R29, R118; assumption 9). -/
  | withdraw (addr len : Nat)
  /-- The host reads `gate_status`, `busy` and `resp_valid` (10_state.md R18). -/
  | readSignals
  /-- The host reads one field of `RESP` (R18, 70_reset_and_hazards.md R117). -/
  | readResp (f : RespField)
  deriving DecidableEq, Repr

/-- What the host observes (R18, R122). -/
inductive Observation where
  /-- The response a TAKE delivered (R83). -/
  | taken (r : Response)
  /-- `gate_status`, `busy`, `resp_valid`. -/
  | signals (gateStatus : BitVec 2) (busy respValid : Bool)
  /-- The value of a `RESP` field. -/
  | field (f : RespField) (v : FieldValue)
  deriving DecidableEq, Repr

/-- Who moves next (assumption 3): the block, or the host's command sequence number `k`. -/
inductive Turn where
  | block
  | stream (k : Nat)
  deriving DecidableEq, Repr

/-- Host memory `HM`: a partial map from addresses to bytes (20_memory.md R29), as a list of (address,
byte) pairs with addresses strictly rising. A listed address is admitted, an unlisted one is not
(assumption 6). -/
abbrev Memory := List Host.Cell

/-- The state elements whose reading is a fault while they hold ⊥ (00_scope.md R12). -/
inductive Element where
  | req
  | lane
  | h
  | resp
  | respField (f : RespField)
  deriving DecidableEq, Repr

/-- Why a step has no next state. -/
inductive Fault where
  /-- A step reads a state element that holds ⊥ (R12, 60_exceptions.md R94). Raised by a host read of a
  `RESP` field that is ⊥, and by an operation that finds its register empty. Safe. -/
  | readBottom (e : Element)
  /-- Stuck: PERFORM reads the address `a`, which is not admitted (20_memory.md R30, R33). Raised by the
  five operations. Safe: the spec gives the step no outcome. -/
  | stuckRead (a : Nat)
  /-- Stuck: a SUBMIT waits while GATE = FAILED and no agent has an enabled step (R81, R92). Raised by
  step. Safe. -/
  | stuckGateFailed
  /-- Stuck: work is left and no agent has an enabled step (R12, 70_reset_and_hazards.md R115). Raised by
  step. Safe. -/
  | stuckHeld
  /-- Stuck: no command is left and the block is idle, but a RESET discarded a SUBMIT, so that not every
  SUBMIT has been followed by its TAKE and the run has not ended (70_reset_and_hazards.md R122, R110;
  assumption 17). Raised by step. Safe: no agent has a step there. -/
  | stuckDiscarded
  /-- PERFORM or a command is asked for where it is not enabled, so there is no such step (R81 to R83).
  Raised by a meaning that is run outside its enabling condition; step runs none so. Safe. -/
  | notEnabled
  deriving DecidableEq, Repr

/-- A form the model gives no meaning. -/
inductive Refusal where
  /-- The instruction has no meaning in the model yet. Raised by no arm of exec. Safe. -/
  | notModelled (mnemonic : String)
  /-- A host command whose operand does not fit the field that carries it: a descriptor field wider than
  its width, or an address at or above 2^ADDR_WIDTH. The block's typed interface cannot carry it
  (30_encoding.md R47, 60_exceptions.md R93). Raised by SUBMIT, a host write and a withdrawal. Safe. -/
  | malformedCommand
  deriving DecidableEq, Repr

/-- The whole state: the block's tuple of R13, then the host's side, then the parameters of R14. -/
structure State where
  /-- `GATE` (R19). -/
  gate : Gate
  /-- `PHASE` (R21). -/
  phase : Phase
  /-- `REQ` (R22); `none` is ⊥. -/
  req : Option Request
  /-- `LANE[0..3]` (R23); `none` is ⊥. -/
  lane : Option Lanes
  /-- `H` (R24); `none` is ⊥. -/
  h : Option Word64
  /-- `RESP` (R25); `none` is ⊥. -/
  resp : Option Response
  /-- Host memory `HM` and the admitted set `ADMIT` (R29). -/
  mem : Memory
  /-- The host's commands that have not taken effect yet: one list per host thread, in issue order
  (R14, R27; assumption 2). -/
  streams : List (List Command)
  /-- The model's own: the turns that say who moves next (assumption 3). -/
  sched : List Turn
  /-- What the host observed, oldest first (R122). -/
  observed : List Observation
  /-- The host's record of the SUBMITs that took effect and whose operation a RESET discarded, so that no
  TAKE of theirs can come (R110, R122; assumption 17). -/
  discarded : Nat
  /-- The parameters of the step relation (R14); no step changes them. -/
  params : Params
  deriving DecidableEq, Repr

/-- The outcome of a step or of a meaning. -/
abbrev Result := Host.Outcome State Fault Refusal

/-- Power-on (70_reset_and_hazards.md R108, R109): GATE = UNINIT, PHASE = IDLE, everything else of the
block ⊥. The host has admitted no memory, issued no command, observed nothing and lost no SUBMIT
(assumptions 5, 10, 17). -/
def State.reset : State where
  gate := .uninit
  phase := .idle
  req := none
  lane := none
  h := none
  resp := none
  mem := []
  streams := []
  sched := []
  observed := []
  discarded := 0
  params := Config.params

end Sys2Proof.Machine
end

