-- ==== Sys2Proof/Machine/Flags.lean ====
section
/-! DEFINITION. The block has no status flags (10_state.md R17): an operation's outcome stands in
`RESP.STATUS` alone. What stands here instead are the read-only signals of R18 and the reads of `RESP`. -/

namespace Sys2Proof.Machine

/-- `gate_status` (R18). -/
def gateStatus (s : State) : BitVec 2 := s.gate.code

/-- `busy`: PHASE ≠ IDLE (R18). -/
def busy (s : State) : Bool := decide (s.phase ≠ .idle)

/-- `resp_valid`: PHASE = RESPONDING (R18). -/
def respValid (s : State) : Bool := decide (s.phase = .responding)

/-- The value of one field of a response, `none` where it holds ⊥ (30_encoding.md R55, R56). -/
def respFieldValue (r : Response) : RespField → Option FieldValue
  | .status => some (.bits r.status.code.toNat)
  | .kind => r.kind.map (fun v => .bits v.toNat)
  | .len => r.len.map (fun v => .bits v.toNat)
  | .data => r.data.map .bytes
  | .u32 => r.u32.map (fun v => .bits v.toNat)

/-- A host read of a field of `RESP` (70_reset_and_hazards.md R117): its value, or the element that holds
⊥. `RESP` may be read only while `resp_valid` holds, and holds ⊥ in every other phase (R25). -/
def readRespField (s : State) (f : RespField) : Except Element FieldValue :=
  if s.phase ≠ .responding then .error .resp
  else match s.resp with
    | none => .error .resp
    | some r =>
      match respFieldValue r f with
      | none => .error (.respField f)
      | some v => .ok v

end Sys2Proof.Machine
end

