-- ==== Sys2Proof/Machine/Memory.lean ====
section
/-! DEFINITION. Host memory (20_memory.md §1): the read of one byte, the host's writes and withdrawals, and
the canonical form. -/

namespace Sys2Proof.Machine

/-- Canonical form: addresses strictly rising and inside the address space (R29). -/
abbrev Memory.wf (aw : Nat) (m : Memory) : Prop :=
  m.Pairwise (fun c d => c.1 < d.1) ∧ ∀ c ∈ m, c.1 < 2 ^ aw

/-- The byte listed at `a`, if any. -/
def Memory.lookup (m : Memory) (a : Nat) : Option Byte :=
  match m with
  | [] => none
  | c :: cs => if c.1 = a then some c.2 else Memory.lookup cs a

/-- `m` with the byte `b` at `a`, in its place in the order. -/
def Memory.insert (m : Memory) (a : Nat) (b : Byte) : Memory :=
  match m with
  | [] => [(a, b)]
  | c :: cs =>
    if a < c.1 then (a, b) :: c :: cs
    else if a = c.1 then (a, b) :: cs
    else c :: Memory.insert cs a b

/-- `m` with `bytes` from `a` on (30_encoding.md R58). -/
def Memory.write (m : Memory) (a : Nat) (bytes : List Byte) : Memory :=
  match bytes with
  | [] => m
  | b :: bs => Memory.write (Memory.insert m a b) (a + 1) bs

/-- `m` without the `len` bytes from `a` on. -/
def Memory.withdraw (m : Memory) (a len : Nat) : Memory :=
  m.filter (fun c => !(decide (a ≤ c.1) && decide (c.1 < a + len)))

/-- `MemRead(a, 1)` (R30): the byte if `a` is admitted. An address at or above 2^ADDR_WIDTH never is (R33). -/
def memRead (s : State) (a : Nat) : Option Byte :=
  if a < 2 ^ s.params.addrWidth then Memory.lookup s.mem a else none

/-- `View(ptr, len)` (R32): the bytes at `ptr`, `ptr + 1`, … in that order, or the first address that is
not admitted. A view of length 0 has no bytes, whatever its `ptr` (R33). -/
def readView (s : State) (ptr : Nat) : Nat → Except Nat (List Byte)
  | 0 => .ok []
  | n + 1 =>
    match memRead s ptr with
    | none => .error ptr
    | some b =>
      match readView s (ptr + 1) n with
      | .error a => .error a
      | .ok bs => .ok (b :: bs)

end Sys2Proof.Machine
end

