-- ==== Sys2Proof/Machine/Operands.lean ====
section
/-! DEFINITION. The operand forms: the values the block assembles from raw bytes (30_encoding.md R50), that
is, the key lanes (40_hashcore.md R63). -/

namespace Sys2Proof.Machine

/-- `Σ bj · 2^(8·j)`, exact (00_scope.md R10). -/
def leNat : List Byte → Nat
  | [] => 0
  | b :: bs => b.toNat + 256 * leNat bs

/-- `LE64` of (up to) 8 bytes (R10). -/
def le64 (bs : List Byte) : Word64 := BitVec.ofNat 64 (leNat bs)

/-- `LANE[i]` of the key `k`: bytes 8i to 8i + 7, little-endian (R63). -/
def laneOf (k : List Byte) (i : Nat) : Word64 := le64 ((k.drop (8 * i)).take 8)

/-- `Decompose(k)` (R60, R63). -/
def lanesOf (k : List Byte) : Lanes := #v[laneOf k 0, laneOf k 1, laneOf k 2, laneOf k 3]

end Sys2Proof.Machine
end

