-- ==== Sys2Proof/Machine/Ops.lean ====
section
/-! DEFINITION. The named operations over the state: the responses, taking an error and returning from it,
the units of PERFORM (42_entry_operations.md R82) and what the host's commands do to the block. -/

namespace Sys2Proof.Machine

/-- Runs `f` on the next state of `o`, if there is one. -/
def andThen (o : Result) (f : State → Result) : Result :=
  match o with
  | .next s => f s
  | .fault x => .fault x
  | .refused r => .refused r

/-- `respond(OK, kind, len, data, ⊥)` (R85 to R87; 30_encoding.md R55). -/
def okBytes (kind : BitVec 3) (data : List Byte) : Response where
  status := .ok
  kind := some kind
  len := some (BitVec.ofNat 5 data.length)
  data := some data
  u32 := none

/-- `respond(OK, kind, 0, [], v)` (R88, R89; 30_encoding.md R55). -/
def okU32 (kind : BitVec 3) (v : Word32) : Response where
  status := .ok
  kind := some kind
  len := some 0#5
  data := some []
  u32 := some v

/-- An error response: every field besides STATUS holds ⊥ (30_encoding.md R56). -/
def errorResponse (st : Status) : Response where
  status := st
  kind := none
  len := none
  data := none
  u32 := none

/-- Taking an error (60_exceptions.md R90, R91, R98): PERFORM's error branch. The status goes into `RESP`,
PHASE becomes RESPONDING, `LANE` and `H` are left as they are (⊥, R82); nothing is saved and no mode, mask
or gate changes. -/
def raise (st : Status) (s : State) : State :=
  { s with resp := some (errorResponse st), phase := .responding }

/-- What TAKE leaves (42_entry_operations.md R83, 10_state.md R26), which is also the return from an error
(60_exceptions.md R99): the host has the response, every element of the operation is ⊥, PHASE is IDLE. -/
def takeResponse (r : Response) (s : State) : State :=
  { s with req := none, lane := none, h := none, resp := none, phase := .idle,
           observed := s.observed ++ [.taken r] }

/-- The key-to-lane decomposer (40_hashcore.md R62, R63): reads the 32 key bytes, writes `LANE[0..3]`. -/
def decompose (kptr : Nat) (s : State) : Result :=
  match readView s kptr Config.keyBytes with
  | .error a => .fault (.stuckRead a)
  | .ok k => .next { s with lane := some (lanesOf k) }

/-- The message-to-hash adapter (40_hashcore.md R66): reads the message, writes `H`. -/
def adapt (mptr mlen : Nat) (s : State) : Result :=
  match readView s mptr mlen with
  | .error a => .fault (.stuckRead a)
  | .ok m =>
    match s.lane with
    | none => .fault (.readBottom .lane)
    | some lanes => .next { s with h := some (Config.mix s.params.hashAlgorithm lanes m mlen) }

/-- One encoder (41_result_encoder.md R78): reads `H`, writes `RESP`. -/
def encodeResult (enc : Word64 → Response) (s : State) : Result :=
  match s.h with
  | none => .fault (.readBottom .h)
  | some v => .next { s with resp := some (enc v) }

/-- The end of PERFORM: `LANE` and `H` hold ⊥ outside PERFORM (10_state.md R23, R24; assumption 4), and
PHASE becomes RESPONDING (R82). -/
def finish (s : State) : State :=
  { s with lane := none, h := none, phase := .responding }

/-- PERFORM of a legal request (R82), with the encoder of its operation: enabled iff PHASE = WORKING, key
length first (R90), then the decomposer, the adapter and the encoder. -/
def performRequest (kptr klen mptr mlen : Nat) (enc : Word64 → Response) (s : State) : Result :=
  if s.phase ≠ .working then .fault .notEnabled
  else if klen ≠ Config.keyBytes then .next (raise .invalidKeyLength s)
  else andThen (decompose kptr s) fun s₁ =>
    andThen (adapt mptr mlen s₁) fun s₂ =>
    andThen (encodeResult enc s₂) fun s₃ => .next (finish s₃)

/-- The SUBMITs a RESET leaves without their TAKE: one more where an operation is in flight (R110, R122). -/
def discardedAfterReset (s : State) : Nat :=
  match s.phase with
  | .idle => s.discarded
  | .working | .responding => s.discarded + 1

/-- RESET (70_reset_and_hazards.md R108): every element of the block to its reset value; host memory, the
parameters and what the host observed stay, and the host's record has the operation in flight, if any, as
discarded (R110). -/
def resetBlock (s : State) : State :=
  { s with gate := .uninit, phase := .idle, req := none, lane := none, h := none, resp := none,
           discarded := discardedAfterReset s }

/-- INIT (42_entry_operations.md R84). -/
def initGate (s : State) : State :=
  match s.gate with
  | .uninit => { s with gate := if s.params.capability then .ready else .failed }
  | .ready => s
  | .failed => s

/-- What SUBMIT writes (42_entry_operations.md R81). -/
def latchRequest (d : Descriptor) (s : State) : State :=
  { s with req := some d.latch, phase := .working }

end Sys2Proof.Machine
end

