-- ==== Sys2Proof/Machine/Commands.lean ====
section
/-! DEFINITION. The host's commands (30_encoding.md R57, R58): when each is enabled and what it does. -/

namespace Sys2Proof.Machine

/-- The `n` bytes from `a` and the `len` bytes from `p` share an address. -/
def overlaps (a n p len : Nat) : Bool :=
  decide (0 < n) && decide (0 < len) && decide (a < p + len) && decide (p < a + n)

/-- The `n` bytes from `a` touch the key view or the message view of the operation in flight, which the
host must leave unchanged from SUBMIT until TAKE (20_memory.md R40, 70_reset_and_hazards.md R116). -/
def touchesFlight (s : State) (a n : Nat) : Bool :=
  match s.phase with
  | .idle => false
  | .working | .responding =>
    match s.req with
    | none => false
    | some r => overlaps a n r.keyPtr r.keyLen || overlaps a n r.msgPtr r.msgLen

/-- PERFORM of the request reads its views (20_memory.md R34): the request is legal and its key length 32. -/
def performReads (q : Request) : Bool :=
  match decode q with
  | .error _ => false
  | .ok _ => decide (q.keyLen = Config.keyBytes)

/-- The `n` bytes from `a` touch a view that the operation in flight reads, which must stay admitted from
SUBMIT until TAKE. A view that is never read (the key view where key_len ≠ 32, a message view of length 0,
and by R34 both views of an illegal request or of one with key_len ≠ 32) need not be admitted
(70_reset_and_hazards.md R118). -/
def touchesReads (s : State) (a n : Nat) : Bool :=
  match s.req with
  | none => false
  | some q => performReads q && touchesFlight s a n

/-- The enabling condition of each command (R81, R83, R84, R108; R40 and R118 for the host's own memory). -/
def commandEnabled (s : State) : Command → Bool
  | .reset => true
  | .init => true
  | .submit _ => decide (s.gate = .ready) && decide (s.phase = .idle)
  | .take => decide (s.phase = .responding)
  | .write a bs => !touchesFlight s a bs.length
  | .withdraw a n => !touchesReads s a n
  | .readSignals => true
  | .readResp _ => true

/-- SUBMIT d (R81). A descriptor that does not fit its fields is no command of the block (R47, R93). -/
def runSubmit (d : Descriptor) (s : State) : Result :=
  if d.fits s.params.addrWidth s.params.lenWidth then .next (latchRequest d s)
  else .refused .malformedCommand

/-- TAKE (R83). -/
def runTake (s : State) : Result :=
  match s.resp with
  | none => .fault (.readBottom .resp)
  | some r => .next (takeResponse r s)

/-- A host write (30_encoding.md R58): the bytes are written and admitted (R29). -/
def runWrite (a : Nat) (bs : List Byte) (s : State) : Result :=
  if a + bs.length ≤ 2 ^ s.params.addrWidth then .next { s with mem := Memory.write s.mem a bs }
  else .refused .malformedCommand

/-- The host withdraws bytes from ADMIT (R29, R118; assumption 9). -/
def runWithdraw (a n : Nat) (s : State) : Result :=
  if a + n ≤ 2 ^ s.params.addrWidth then .next { s with mem := Memory.withdraw s.mem a n }
  else .refused .malformedCommand

/-- The host reads the three signals, at any time (R18, R19). -/
def runReadSignals (s : State) : Result :=
  .next { s with observed := s.observed ++ [.signals (gateStatus s) (busy s) (respValid s)] }

/-- The host reads a field of `RESP`: a fault where it holds ⊥ (R117, R94). -/
def runReadResp (f : RespField) (s : State) : Result :=
  match readRespField s f with
  | .error e => .fault (.readBottom e)
  | .ok v => .next { s with observed := s.observed ++ [.field f v] }

/-- One host command: no step where it is not enabled, else its effect. -/
def runCommand (c : Command) (s : State) : Result :=
  if commandEnabled s c then
    match c with
    | .reset => .next (resetBlock s)
    | .init => .next (initGate s)
    | .submit d => runSubmit d s
    | .take => runTake s
    | .write a bs => runWrite a bs s
    | .withdraw a n => runWithdraw a n s
    | .readSignals => runReadSignals s
    | .readResp f => runReadResp f s
  else .fault .notEnabled

/-- The next command of the host's sequence `k`. -/
def nextCommand (s : State) (k : Nat) : Option Command :=
  match s.streams[k]? with
  | some (c :: _) => some c
  | _ => none

/-- `s` with the first command of sequence `k` gone. -/
def dropCommand (s : State) (k : Nat) : State :=
  { s with streams := s.streams.modify k List.tail }

/-- The host's step: the next command of sequence `k` takes effect. -/
def hostStep (k : Nat) (s : State) : Result :=
  match nextCommand s k with
  | some c => runCommand c (dropCommand s k)
  | none => .fault .notEnabled

end Sys2Proof.Machine
end

