-- ==== Sys2Proof/Machine/Encoders.lean ====
section
/-! DEFINITION. The five result encoders (41_result_encoder.md R72 to R79), pure functions of `h` alone. -/

namespace Sys2Proof.Machine

/-- `EncBuffer(h)` (R72): byte k is `(h >> 8k) & 0xff`. -/
def encBuffer (h : Word64) : List Byte :=
  [0, 1, 2, 3, 4, 5, 6, 7].map (fun k => ((h >>> (8 * k)) &&& 0xff#64).setWidth 8)

/-- `'0' + d` (R73, R79). -/
def decDigit (d : Nat) : Byte := BitVec.ofNat 8 (0x30 + d)

/-- The loop of R73: while `v ≠ 0`, put the digit of `v mod 10` before `s` and go on with `v div 10`. -/
def decLoop : Nat → Nat → List Byte → List Byte
  | 0, _, s => s
  | fuel + 1, v, s => if v = 0 then s else decLoop fuel (v / 10) (decDigit (v % 10) :: s)

/-- `EncDecimal(h)` (R73): canonical base 10, "0" for 0. A 64-bit value has at most 20 digits (R6), so the
loop ends within its fuel. -/
def encDecimal (h : Word64) : List Byte :=
  if h = 0#64 then [decDigit 0] else decLoop Config.decMaxChars h.toNat []

/-- HEXDIGIT = "0123456789abcdef" in ASCII (R74, R79). -/
def hexAlphabet : List Byte :=
  [0x30, 0x31, 0x32, 0x33, 0x34, 0x35, 0x36, 0x37, 0x38, 0x39, 0x61, 0x62, 0x63, 0x64, 0x65, 0x66]

/-- HEXDIGIT[n], for n below 16. -/
def hexDigit (n : Nat) : Byte := hexAlphabet.getD n 0

/-- SHIFT[0..15] (R74; 90_conflicts.md C1: the formula wins). -/
def hexShift : List Nat := [4, 0, 12, 8, 20, 16, 28, 24, 36, 32, 44, 40, 52, 48, 60, 56]

/-- `EncHex(h)` (R74): character p is HEXDIGIT[(h >> SHIFT[p]) & 0xf]. -/
def encHex (h : Word64) : List Byte :=
  hexShift.map (fun n => hexDigit ((h >>> n) &&& 0xf#64).toNat)

/-- `EncLow(h)` (R76). -/
def encLow (h : Word64) : Word32 := (h &&& 0xFFFFFFFF#64).setWidth 32

/-- `EncHigh(h)` (R77), a logical shift. -/
def encHigh (h : Word64) : Word32 := (h >>> 32).setWidth 32

end Sys2Proof.Machine
end

