-- ==== Sys2Proof/Machine/Entry.lean ====
section
/-! DEFINITION. The five entry operations (42_entry_operations.md R85 to R89): one computation path, one
encoder each (41_result_encoder.md R78). -/

namespace Sys2Proof.Machine

/-- AsBuffer (R85): KIND 000, LEN 8, DATA = EncBuffer(H). -/
def execAsBuffer (kptr klen mptr mlen : Nat) (s : State) : Result :=
  performRequest kptr klen mptr mlen (fun v => okBytes 0b000#3 (encBuffer v)) s

/-- AsString (R86): KIND 001, LEN = the number of digits, DATA = EncDecimal(H). -/
def execAsString (kptr klen mptr mlen : Nat) (s : State) : Result :=
  performRequest kptr klen mptr mlen (fun v => okBytes 0b001#3 (encDecimal v)) s

/-- AsHexString (R87): KIND 010, LEN 16, DATA = EncHex(H). -/
def execAsHexString (kptr klen mptr mlen : Nat) (s : State) : Result :=
  performRequest kptr klen mptr mlen (fun v => okBytes 0b010#3 (encHex v)) s

/-- AsUInt32Low (R88): KIND 011, LEN 0, DATA empty, U32 = EncLow(H). -/
def execAsUInt32Low (kptr klen mptr mlen : Nat) (s : State) : Result :=
  performRequest kptr klen mptr mlen (fun v => okU32 0b011#3 (encLow v)) s

/-- AsUInt32High (R89): KIND 100, LEN 0, DATA empty, U32 = EncHigh(H). -/
def execAsUInt32High (kptr klen mptr mlen : Nat) (s : State) : Result :=
  performRequest kptr klen mptr mlen (fun v => okU32 0b100#3 (encHigh v)) s

end Sys2Proof.Machine
end

