-- ==== Sys2Proof/Machine/Dispatch.lean ====
section
/-! DEFINITION. The meaning of each entry operation, one arm per constructor of Instr. -/

namespace Sys2Proof.Machine

def exec (i : Instr) (s : State) : Host.Outcome State Fault Refusal :=
  match i with
  | .asBuffer kptr klen mptr mlen => Sys2Proof.Machine.execAsBuffer kptr klen mptr mlen s
  | .asString kptr klen mptr mlen => Sys2Proof.Machine.execAsString kptr klen mptr mlen s
  | .asHexString kptr klen mptr mlen => Sys2Proof.Machine.execAsHexString kptr klen mptr mlen s
  | .asUInt32Low kptr klen mptr mlen => Sys2Proof.Machine.execAsUInt32Low kptr klen mptr mlen s
  | .asUInt32High kptr klen mptr mlen => Sys2Proof.Machine.execAsUInt32High kptr klen mptr mlen s

end Sys2Proof.Machine
end

