-- ==== Sys2Proof/Machine/Schedule.lean ====
section
/-! DEFINITION. PERFORM on the latched request (42_entry_operations.md R82), and who moves next: the spec
fixes no order between an enabled PERFORM and the host's enabled commands, so the state's own list of turns
does (assumption 3). -/

namespace Sys2Proof.Machine

/-- PERFORM (R82): legality first (60_exceptions.md R96), then the operation the request selects. -/
def perform (s : State) : Result :=
  if s.phase ≠ .working then .fault .notEnabled
  else match s.req with
    | none => .fault (.readBottom .req)
    | some r =>
      match decode r with
      | .error _ => .next (raise .illegalOperation s)
      | .ok i => exec i s

/-- The faults that say "no step": 00_scope.md R12's stuck, and an operation that is not enabled. -/
def Fault.isStuck : Fault → Bool
  | .readBottom _ => false
  | .stuckRead _ => true
  | .stuckGateFailed => true
  | .stuckHeld => true
  | .stuckDiscarded => true
  | .notEnabled => true

/-- PERFORM has a step: PHASE = WORKING and no byte it must read is outside ADMIT (R82, R30). -/
def performEnabled (s : State) : Bool :=
  match perform s with
  | .next _ => true
  | .refused _ => true
  | .fault f => !f.isStuck

/-- The next command of sequence `k` is enabled. -/
def streamEnabled (s : State) (k : Nat) : Bool :=
  match nextCommand s k with
  | some c => commandEnabled s c
  | none => false

/-- The first sequence whose next command is enabled. -/
def firstEnabled (s : State) : Option Nat :=
  (List.range s.streams.length).find? (streamEnabled s)

/-- Who moves where no turn is given: the block if it can (weak fairness, 70_reset_and_hazards.md R121),
else the first sequence that can. `none` is the block. -/
def defaultChoice (s : State) : Option Nat :=
  if performEnabled s then none else firstEnabled s

/-- The host sequence that moves next, or `none` for the block. A turn whose sequence is held passes. -/
def hostChoice (s : State) : Option Nat :=
  match s.sched with
  | .stream k :: _ => if streamEnabled s k then some k else defaultChoice s
  | .block :: _ => defaultChoice s
  | [] => defaultChoice s

/-- The turn is over. -/
def passTurn (s : State) : State := { s with sched := s.sched.tail }

/-- Every command the host issued has taken effect. -/
def commandsDone (s : State) : Bool := s.streams.all List.isEmpty

/-- The end of a run (70_reset_and_hazards.md R122): PHASE = IDLE, and every SUBMIT the host issued has been
followed by its TAKE: no command is left, none is in flight, and no RESET discarded one. -/
def runEnded (s : State) : Bool :=
  decide (s.phase = .idle) && commandsDone s && decide (s.discarded = 0)

/-- Some sequence waits with a SUBMIT. -/
def submitWaits (s : State) : Bool :=
  s.streams.any (fun cs => match cs with
    | .submit _ :: _ => true
    | _ => false)

/-- Which kind of stuck it is that no agent has an enabled step (R92, R115, R122). -/
def stuckReason (s : State) : Fault :=
  if s.gate = .failed ∧ s.phase = .idle ∧ submitWaits s then .stuckGateFailed
  else if s.phase = .idle ∧ commandsDone s then .stuckDiscarded
  else .stuckHeld

/-- The block's turn: PERFORM if PHASE = WORKING. Otherwise nobody can move: at the end of a run the state
stays as it is (assumption 7), and anywhere else the run is stuck. -/
def blockStep (s : State) : Result :=
  match s.phase with
  | .working => perform s
  | .idle | .responding => if runEnded s then .next s else .fault (stuckReason s)

/-- One step of host and block together. -/
def stepOnce (s : State) : Result :=
  match hostChoice s with
  | some k => hostStep k (passTurn s)
  | none => blockStep (passTurn s)

/-- `s` as a SUBMIT of the descriptor `d` leaves it in an initialised, idle block, with the block's PERFORM
next (assumption 13). -/
def placeRequest (d : Descriptor) (s : State) : State :=
  { s with gate := .ready, phase := .working, req := some d.latch, lane := none, h := none, resp := none,
           sched := [] }

end Sys2Proof.Machine
end

