-- ==== Sys2Proof/Machine/Step.lean ====
section
/-! DEFINITION. The step, and where a request word is placed so that the next step performs it. -/

namespace Sys2Proof.Machine

/-- One step of the machine (10_state.md R15: two agents take steps). -/
def step (s : State) : Host.Outcome State Fault Refusal := stepOnce s

/-- `s` with the request whose descriptor bits are `w` latched in `REQ`, where PERFORM reads it. -/
def State.withFetchWord (s : State) (nbits w : Nat) : State :=
  placeRequest (tableDescriptor nbits w) s

end Sys2Proof.Machine
end

