-- ==== Sys2Proof/Safety.lean ====
section
/-! DEFINITION. What claims about HHP-CORE are stated in: legality, the shape of a response, the invariant
every step keeps, and the observation of a run. -/

namespace Sys2Proof.Safety

open Sys2Proof.Machine

/-- A legal control word (30_encoding.md R52): OP is one of the five codes and W0[63:3] = 0. -/
def legalWord (w0 : Word64) : Prop :=
  (w0.extractLsb' 0 3 = 0b000#3 ∨ w0.extractLsb' 0 3 = 0b001#3 ∨ w0.extractLsb' 0 3 = 0b010#3 ∨
    w0.extractLsb' 0 3 = 0b011#3 ∨ w0.extractLsb' 0 3 = 0b100#3) ∧ w0.extractLsb' 3 61 = 0#61

/-- Every field of a latched request fits its width (10_state.md R22). -/
def requestFits (p : Params) (q : Request) : Prop :=
  q.keyPtr < 2 ^ p.addrWidth ∧ q.keyLen < 2 ^ p.lenWidth ∧
    q.msgPtr < 2 ^ p.addrWidth ∧ q.msgLen < 2 ^ p.lenWidth

/-- The fields a response sets, per status and kind (30_encoding.md R54, R55, R56). -/
def responseWf (r : Response) : Prop :=
  match r.status, r.kind, r.len, r.data, r.u32 with
  | .ok, some k, some n, some d, u =>
    d.length = n.toNat ∧
      (k = 0b000#3 ∧ n = 8#5 ∧ u = none ∨
        k = 0b001#3 ∧ 1 ≤ n.toNat ∧ n.toNat ≤ 20 ∧ u = none ∨
        k = 0b010#3 ∧ n = 16#5 ∧ u = none ∨
        k = 0b011#3 ∧ n = 0#5 ∧ u.isSome = true ∨
        k = 0b100#3 ∧ n = 0#5 ∧ u.isSome = true)
  | .ok, _, _, _, _ => False
  | _, k, n, d, u => k = none ∧ n = none ∧ d = none ∧ u = none

/-- The status PERFORM gives a request whose views are admitted (60_exceptions.md R96). -/
def statusOf (q : Request) : Status :=
  match decode q with
  | .error _ => .illegalOperation
  | .ok _ => if q.keyLen ≠ 32 then .invalidKeyLength else .ok

/-- The response each operation gives for the HashResult `v` (R85 to R89; 30_encoding.md R55). -/
def responseOf (i : Instr) (v : Word64) : Response :=
  match i with
  | .asBuffer .. =>
    { status := .ok, kind := some 0b000#3, len := some 8#5, data := some (encBuffer v), u32 := none }
  | .asString .. =>
    { status := .ok, kind := some 0b001#3, len := some (BitVec.ofNat 5 (encDecimal v).length),
      data := some (encDecimal v), u32 := none }
  | .asHexString .. =>
    { status := .ok, kind := some 0b010#3, len := some 16#5, data := some (encHex v), u32 := none }
  | .asUInt32Low .. =>
    { status := .ok, kind := some 0b011#3, len := some 0#5, data := some [], u32 := some (encLow v) }
  | .asUInt32High .. =>
    { status := .ok, kind := some 0b100#3, len := some 0#5, data := some [], u32 := some (encHigh v) }

/-- The response of an error: the status, every other field ⊥ (30_encoding.md R56). -/
def errorOnly (st : Status) : Response :=
  { status := st, kind := none, len := none, data := none, u32 := none }

/-- The invariant of the machine: what holds in every state a run reaches, between steps. -/
structure Inv (s : State) : Prop where
  /-- The bounds on the widths (00_scope.md R7). -/
  params : s.params.wf
  /-- Host memory is in canonical form (20_memory.md R29). -/
  mem : Memory.wf s.params.addrWidth s.mem
  /-- `LANE` holds ⊥ outside PERFORM (10_state.md R23). -/
  lane : s.lane = none
  /-- `H` holds ⊥ outside PERFORM (10_state.md R24). -/
  h : s.h = none
  /-- `REQ` and `RESP` hold ⊥ while PHASE = IDLE (10_state.md R22, R25). -/
  idle : s.phase = .idle → s.req = none ∧ s.resp = none
  /-- A request is in flight only in an initialised block (R81), and fits its fields (R22). -/
  busy : s.phase ≠ .idle → s.gate = .ready ∧ ∃ q, s.req = some q ∧ requestFits s.params q
  /-- `RESP` holds ⊥ while PHASE = WORKING (10_state.md R25). -/
  working : s.phase = .working → s.resp = none
  /-- While PHASE = RESPONDING, `RESP` answers the request (30_encoding.md R54, R55, R56). -/
  responding : s.phase = .responding → ∃ q r, s.req = some q ∧ s.resp = some r ∧ responseWf r ∧
    r.status = statusOf q ∧ (r.status = .ok → r.kind = some q.op)

/-- The block's own tuple (10_state.md R13). -/
def blockOf (s : State) :
    Gate × Phase × Option Request × Option Lanes × Option Word64 × Option Response :=
  (s.gate, s.phase, s.req, s.lane, s.h, s.resp)

/-- The responses the host took, oldest first (70_reset_and_hazards.md R122). -/
def takenResponses (s : State) : List Response :=
  s.observed.filterMap (fun o => match o with
    | .taken r => some r
    | _ => none)

/-- The observation of a run (70_reset_and_hazards.md R122): the responses the host took, and
`gate_status`. -/
def runObservation (s : State) : List Response × BitVec 2 := (takenResponses s, gateStatus s)

/-- An address of a view of the operation in flight (20_memory.md R32). -/
def inViews (q : Request) (a : Nat) : Prop :=
  q.keyPtr ≤ a ∧ a < q.keyPtr + q.keyLen ∨ q.msgPtr ≤ a ∧ a < q.msgPtr + q.msgLen

/-- An address that PERFORM of the request reads (20_memory.md R34). -/
def inReadViews (q : Request) (a : Nat) : Prop := performReads q = true ∧ inViews q a

/-- The bytes of a view, read as in 20_memory.md R32: byte `i` is the byte at `ptr + i`. -/
def viewHolds (s : State) (ptr : Nat) (bs : List Byte) : Prop :=
  ∀ i b, bs[i]? = some b → memRead s (ptr + i) = some b

/-- The unsigned number whose decimal digits are `bs` (41_result_encoder.md R80). -/
def parseDecimal (bs : List Byte) : Nat :=
  bs.foldl (fun n b => 10 * n + (b.toNat - 0x30)) 0

end Sys2Proof.Safety
end

