-- ==== Sys2Proof/Certificates/Slice0/Obligations.lean ====
section
/-! DEFINITION. The statements about HHP-CORE: its encoding, its encoders, the hash core's contract, the five
entry operations, the host's commands, and what every step keeps. -/

open Sys2Proof Sys2Proof.Machine Sys2Proof.Safety

/-! ### Encoding -/

/-- 30_encoding.md R47, R48, R51: the bits of a well-formed operation's descriptor decode to it, with every
operand at every value its field admits, at all widths. -/
def Obligations.RequestBitsRoundTrip : Prop :=
  ∀ (aw lw : Nat) (i : Instr), i.wellFormed aw lw = true →
    decodeBits aw lw (encodeBits aw lw i) = .ok i

/-- R53: decoding is total; a legal control word gives exactly one operation, whose descriptor it is, and an
illegal one gives a rejection, whatever W1 to W4 are (the spec marks R53 as derived from R51 and R52). -/
def Obligations.DecodingIsTotalAndUnique : Prop :=
  ∀ d : Descriptor,
    (legalWord d.w0 ∧ ∃ i, decode d.latch = .ok i ∧ encode i = d ∧ ∀ j, encode j = d → j = i) ∨
      (¬ legalWord d.w0 ∧ ∃ e, decode d.latch = .error e)

/-- R51, R52 and table D of 95_test_vectors.md: the five control words select the five operations, and the
table's other words none. -/
def Obligations.ControlWordsDecode : Prop :=
  ∀ kp kl mp ml : Nat,
    decode (Descriptor.latch ⟨0x0000000000000000#64, kp, kl, mp, ml⟩) = .ok (.asBuffer kp kl mp ml) ∧
    decode (Descriptor.latch ⟨0x0000000000000001#64, kp, kl, mp, ml⟩) = .ok (.asString kp kl mp ml) ∧
    decode (Descriptor.latch ⟨0x0000000000000002#64, kp, kl, mp, ml⟩) = .ok (.asHexString kp kl mp ml) ∧
    decode (Descriptor.latch ⟨0x0000000000000003#64, kp, kl, mp, ml⟩) = .ok (.asUInt32Low kp kl mp ml) ∧
    decode (Descriptor.latch ⟨0x0000000000000004#64, kp, kl, mp, ml⟩) = .ok (.asUInt32High kp kl mp ml) ∧
    ∀ w ∈ [0x5#64, 0x6#64, 0x7#64, 0x8#64, 0x9#64, 0x8000000000000000#64, 0xffffffffffffffff#64],
      ∃ e, decode (Descriptor.latch ⟨w, kp, kl, mp, ml⟩) = .error e

/-! ### Result encoders -/

/-- 41_result_encoder.md R72: byte k of the Buffer encoding is bits 8k+7 to 8k of `h`. -/
def Obligations.BufferIsLittleEndianBytes : Prop :=
  ∀ h : Word64, (encBuffer h).length = 8 ∧
    ∀ k, k < 8 → (encBuffer h)[k]? = some (h.extractLsb' (8 * k) 8)

/-- R73: the decimal encoding is the canonical base-10 text of `h`: digits only, 1 to 20 of them, no leading
zero unless `h = 0`, which is "0", and its value is `h`. The ASCII codes are those R79 marks as general
knowledge. -/
def Obligations.DecimalIsCanonical : Prop :=
  ∀ h : Word64, parseDecimal (encDecimal h) = h.toNat ∧
    1 ≤ (encDecimal h).length ∧ (encDecimal h).length ≤ 20 ∧
    (∀ b ∈ encDecimal h, 0x30 ≤ b.toNat ∧ b.toNat ≤ 0x39) ∧
    (h ≠ 0#64 → (encDecimal h).head? ≠ some 0x30#8) ∧ (h = 0#64 → encDecimal h = [0x30#8])

/-- R74 (90_conflicts.md C1): characters 2k and 2k+1 are the hex digits of bits 8k+7 to 8k+4 and 8k+3 to 8k,
in lowercase; the ASCII codes are those R79 marks as general knowledge. -/
def Obligations.HexIsNibbleSwapped : Prop :=
  (∀ h : Word64, (encHex h).length = 16 ∧ ∀ k, k < 8 →
    (encHex h)[2 * k]? = some (hexDigit (h.extractLsb' (8 * k + 4) 4).toNat) ∧
    (encHex h)[2 * k + 1]? = some (hexDigit (h.extractLsb' (8 * k) 4).toNat)) ∧
  (∀ n, n < 10 → (hexDigit n).toNat = 0x30 + n) ∧
  (∀ n, 10 ≤ n → n < 16 → (hexDigit n).toNat = 0x61 + (n - 10))

/-- R75: the hex encoding is the hex dump, high nibble first, of the Buffer encoding (the spec marks R75 as
derived from R72 and R74). -/
def Obligations.HexIsDumpOfBuffer : Prop :=
  ∀ h : Word64, encHex h =
    (encBuffer h).flatMap (fun b => [hexDigit (b.toNat / 16), hexDigit (b.toNat % 16)])

/-- R76, R77: the low and the high 32 bits, unsigned. -/
def Obligations.HalvesAreUnsigned : Prop :=
  ∀ h : Word64, encLow h = h.extractLsb' 0 32 ∧ (encLow h).toNat = h.toNat % 2 ^ 32 ∧
    encHigh h = h.extractLsb' 32 32 ∧ (encHigh h).toNat = h.toNat / 2 ^ 32

/-- R80: the encodings agree (the spec marks R80 as derived from R72, R73, R76 and R77). -/
def Obligations.EncodingsAgree : Prop :=
  ∀ h : Word64,
    (encLow h).setWidth 64 ||| ((encHigh h).setWidth 64 <<< 32) = h ∧
    le64 (encBuffer h) = h ∧ parseDecimal (encDecimal h) = h.toNat

/-! ### Views and the hash core -/

/-- 40_hashcore.md R63: lane i is the sum of its 8 key bytes times 2^(8j), and key byte 8i+j is bits 8j+7 to
8j of lane i. -/
def Obligations.LanesAreLittleEndian : Prop :=
  ∀ k : List Byte, k.length = 32 → ∀ i : Fin 4,
    (lanesOf k)[i].toNat = ∑ j ∈ Finset.range 8, (k.getD (8 * i.val + j) 0#8).toNat * 2 ^ (8 * j) ∧
    ∀ j, j < 8 → k[8 * i.val + j]? = some ((lanesOf k)[i].extractLsb' (8 * j) 8)

/-- 20_memory.md R32: a view reads as the bytes at ptr + i, in order, one for each i below its length. -/
def Obligations.ViewReadsInOrder : Prop :=
  ∀ (s : State) (ptr n : Nat) (bs : List Byte),
    readView s ptr n = .ok bs ↔ bs.length = n ∧ viewHolds s ptr bs

/-- 20_memory.md R33: a view that runs past the top of the address space is not read: it stops at one of its
own addresses that is not admitted; a view of length 0 is never read. -/
def Obligations.WrappingViewIsStuck : Prop :=
  ∀ (s : State) (ptr n : Nat),
    (0 < n → 2 ^ s.params.addrWidth < ptr + n →
      ∃ a, readView s ptr n = .error a ∧ ptr ≤ a ∧ a < ptr + n ∧ memRead s a = none) ∧
    (n = 0 → readView s ptr n = .ok [])

/-- 20_memory.md R29, R30 (assumption 6): in canonical memory, a read returns a byte exactly where the memory
lists that byte. That the listed addresses are ADMIT is the model's reading. -/
def Obligations.ReadReturnsListedByte : Prop :=
  ∀ (s : State) (a : Nat) (b : Byte), Memory.wf s.params.addrWidth s.mem →
    (memRead s a = some b ↔ (a, b) ∈ s.mem)

/-! ### The five entry operations -/

/-- 42_entry_operations.md R85: AsBuffer. Its control word, its error, and its result
where both views can be read; what LANE and H hold afterwards is left to StepKeepsInvariant. -/
def Obligations.AsBufferAnswers : Prop :=
  ∀ (s : State) (kptr klen mptr mlen : Nat), s.phase = .working →
    (encode (.asBuffer kptr klen mptr mlen)).w0 = 0x0000000000000000#64 ∧
    (klen ≠ 32 → exec (.asBuffer kptr klen mptr mlen) s =
      .next { s with resp := some (errorOnly .invalidKeyLength), phase := .responding }) ∧
    (klen = 32 → ∀ k m, readView s kptr 32 = .ok k → readView s mptr mlen = .ok m →
      ∃ t, exec (.asBuffer kptr klen mptr mlen) s = .next t ∧ t = { s with
        lane := t.lane, h := t.h, phase := .responding,
        resp := some {
            status := .ok, kind := some 0b000#3, len := some 8#5,
            data := some (encBuffer (Config.mix s.params.hashAlgorithm (lanesOf k) m mlen)),
            u32 := none } })

/-- 42_entry_operations.md R86: AsString. Its control word, its error, and its result
where both views can be read; what LANE and H hold afterwards is left to StepKeepsInvariant. -/
def Obligations.AsStringAnswers : Prop :=
  ∀ (s : State) (kptr klen mptr mlen : Nat), s.phase = .working →
    (encode (.asString kptr klen mptr mlen)).w0 = 0x0000000000000001#64 ∧
    (klen ≠ 32 → exec (.asString kptr klen mptr mlen) s =
      .next { s with resp := some (errorOnly .invalidKeyLength), phase := .responding }) ∧
    (klen = 32 → ∀ k m, readView s kptr 32 = .ok k → readView s mptr mlen = .ok m →
      ∃ t text n, text = encDecimal (Config.mix s.params.hashAlgorithm (lanesOf k) m mlen) ∧
        n.toNat = text.length ∧
        exec (.asString kptr klen mptr mlen) s = .next t ∧ t = { s with
          lane := t.lane, h := t.h, phase := .responding,
          resp := some {
            status := .ok, kind := some 0b001#3, len := some n,
            data := some text, u32 := none } })

/-- 42_entry_operations.md R87: AsHexString. Its control word, its error, and its result
where both views can be read; what LANE and H hold afterwards is left to StepKeepsInvariant. -/
def Obligations.AsHexStringAnswers : Prop :=
  ∀ (s : State) (kptr klen mptr mlen : Nat), s.phase = .working →
    (encode (.asHexString kptr klen mptr mlen)).w0 = 0x0000000000000002#64 ∧
    (klen ≠ 32 → exec (.asHexString kptr klen mptr mlen) s =
      .next { s with resp := some (errorOnly .invalidKeyLength), phase := .responding }) ∧
    (klen = 32 → ∀ k m, readView s kptr 32 = .ok k → readView s mptr mlen = .ok m →
      ∃ t, exec (.asHexString kptr klen mptr mlen) s = .next t ∧ t = { s with
        lane := t.lane, h := t.h, phase := .responding,
        resp := some {
            status := .ok, kind := some 0b010#3, len := some 16#5,
            data := some (encHex (Config.mix s.params.hashAlgorithm (lanesOf k) m mlen)),
            u32 := none } })

/-- 42_entry_operations.md R88: AsUInt32Low. Its control word, its error, and its result
where both views can be read; what LANE and H hold afterwards is left to StepKeepsInvariant. -/
def Obligations.AsUInt32LowAnswers : Prop :=
  ∀ (s : State) (kptr klen mptr mlen : Nat), s.phase = .working →
    (encode (.asUInt32Low kptr klen mptr mlen)).w0 = 0x0000000000000003#64 ∧
    (klen ≠ 32 → exec (.asUInt32Low kptr klen mptr mlen) s =
      .next { s with resp := some (errorOnly .invalidKeyLength), phase := .responding }) ∧
    (klen = 32 → ∀ k m, readView s kptr 32 = .ok k → readView s mptr mlen = .ok m →
      ∃ t, exec (.asUInt32Low kptr klen mptr mlen) s = .next t ∧ t = { s with
        lane := t.lane, h := t.h, phase := .responding,
        resp := some {
            status := .ok, kind := some 0b011#3, len := some 0#5, data := some [],
            u32 := some (encLow (Config.mix s.params.hashAlgorithm (lanesOf k) m mlen)) } })

/-- 42_entry_operations.md R89: AsUInt32High. Its control word, its error, and its result
where both views can be read; what LANE and H hold afterwards is left to StepKeepsInvariant. -/
def Obligations.AsUInt32HighAnswers : Prop :=
  ∀ (s : State) (kptr klen mptr mlen : Nat), s.phase = .working →
    (encode (.asUInt32High kptr klen mptr mlen)).w0 = 0x0000000000000004#64 ∧
    (klen ≠ 32 → exec (.asUInt32High kptr klen mptr mlen) s =
      .next { s with resp := some (errorOnly .invalidKeyLength), phase := .responding }) ∧
    (klen = 32 → ∀ k m, readView s kptr 32 = .ok k → readView s mptr mlen = .ok m →
      ∃ t, exec (.asUInt32High kptr klen mptr mlen) s = .next t ∧ t = { s with
        lane := t.lane, h := t.h, phase := .responding,
        resp := some {
            status := .ok, kind := some 0b100#3, len := some 0#5, data := some [],
            u32 := some (encHigh (Config.mix s.params.hashAlgorithm (lanesOf k) m mlen)) } })

/-- 60_exceptions.md R90: InvalidKeyLength, for every operation and whatever the memory holds: status code 1,
nothing else in the response, and nothing but RESP and PHASE changed. -/
def Obligations.WrongKeyLengthIsReported : Prop :=
  Status.invalidKeyLength.code = 1#2 ∧
  ∀ (i : Instr) (s : State), s.phase = .working → i.keyLen ≠ 32 →
    exec i s = .next { s with
      phase := .responding,
      resp := some { status := .invalidKeyLength, kind := none, len := none, data := none, u32 := none } }

/-- 60_exceptions.md R91, 30_encoding.md R52: IllegalOperation, whatever the key length and the memory are. -/
def Obligations.IllegalWordIsReported : Prop :=
  Status.illegalOperation.code = 2#2 ∧
  ∀ (d : Descriptor) (s : State), s.phase = .working → s.req = some d.latch → ¬ legalWord d.w0 →
    perform s = .next { s with
      phase := .responding,
      resp := some { status := .illegalOperation, kind := none, len := none, data := none, u32 := none } }

/-- 60_exceptions.md R96: the order of the checks: gate, legality, key length, admission. -/
def Obligations.ChecksComeInOrder : Prop :=
  ∀ s : State,
    (∀ d, s.gate ≠ .ready → commandEnabled s (.submit d) = false) ∧
    ∀ q, s.phase = .working → s.req = some q →
      (∀ e, decode q = .error e → ∃ t, perform s = .next t ∧
        t.resp = some (errorOnly .illegalOperation)) ∧
      (∀ i, decode q = .ok i → q.keyLen ≠ 32 → ∃ t, perform s = .next t ∧
        t.resp = some (errorOnly .invalidKeyLength)) ∧
      (∀ i, decode q = .ok i → q.keyLen = 32 →
        ((∃ j, j < 32 ∧ memRead s (q.keyPtr + j) = none) ∨
          (∃ j, j < q.msgLen ∧ memRead s (q.msgPtr + j) = none)) →
        ∃ a, perform s = .fault (.stuckRead a))

/-- 20_memory.md R30, R32: an operation one of whose view bytes is not admitted is stuck, on an address of its
own views that is not admitted. -/
def Obligations.UnadmittedByteIsStuck : Prop :=
  ∀ (i : Instr) (s : State), s.phase = .working → i.keyLen = 32 →
    ((∃ j, j < 32 ∧ memRead s (i.keyPtr + j) = none) ∨
      (∃ j, j < i.msgLen ∧ memRead s (i.msgPtr + j) = none)) →
    ∃ a, exec i s = .fault (.stuckRead a) ∧ memRead s a = none ∧
      (i.keyPtr ≤ a ∧ a < i.keyPtr + 32 ∨ i.msgPtr ≤ a ∧ a < i.msgPtr + i.msgLen)

/-- 40_hashcore.md R67: with an empty message no message byte is read, msg_ptr plays no part, and H is
MIX(LANE, [], 0), for every operation. -/
def Obligations.EmptyMessageIgnoresPointer : Prop :=
  ∀ (i : Instr) (s : State) (k : List Byte), s.phase = .working → i.keyLen = 32 → i.msgLen = 0 →
    readView s i.keyPtr 32 = .ok k →
    ∃ t, exec i s = .next t ∧ t = { s with
      lane := t.lane, h := t.h, phase := .responding,
      resp := some (responseOf i (Config.mix s.params.hashAlgorithm (lanesOf k) [] 0)) }

/-- The frame of the five operations (20_memory.md R31, 42_entry_operations.md R82, 10_state.md R20): GATE,
REQ, the host's side, the parameters and every byte of memory are unchanged, PHASE is RESPONDING, and LANE and
H are ⊥ after as they were before (assumption 4). -/
def Obligations.EntryOperationsFrame : Prop :=
  ∀ (i : Instr) (s t : State), exec i s = .next t →
    t.phase = .responding ∧ t.gate = s.gate ∧ t.req = s.req ∧ t.mem = s.mem ∧
      (∀ a, memRead t a = memRead s a) ∧ t.streams = s.streams ∧ t.sched = s.sched ∧
      t.observed = s.observed ∧ t.discarded = s.discarded ∧ t.params = s.params ∧
      (s.lane = none → t.lane = none) ∧ (s.h = none → t.h = none)

/-- 30_encoding.md R54, R55, R56, 60_exceptions.md R96: what a response holds, field by field, after any
operation, and after PERFORM of any request, an illegal one among them. -/
def Obligations.ResponsesAreWellFormed : Prop :=
  (∀ (i : Instr) (s t : State), exec i s = .next t →
    ∃ r, t.resp = some r ∧ responseWf r ∧
      (r.status = .ok → r.kind = some i.opCode) ∧ r.status ≠ .illegalOperation) ∧
  ∀ s t : State, perform s = .next t →
    ∃ q r, s.req = some q ∧ t.resp = some r ∧ responseWf r ∧ r.status = statusOf q ∧
      (r.status = .ok → r.kind = some q.op)

/-- 20_memory.md R46: a response depends only on the operation, the key view's bytes, and the message bytes
with their length: not on the pointers, nor on anything else in the machine but MIX. Where the key length is
not 32 no byte is read (R34), and neither which wrong length it is nor the message length plays a part. -/
def Obligations.ResultDependsOnlyOnViews : Prop :=
  ∀ (i j : Instr) (s u : State), i.opCode = j.opCode → (i.keyLen = 32 ↔ j.keyLen = 32) →
    s.phase = .working → u.phase = .working → s.params.hashAlgorithm = u.params.hashAlgorithm →
    (i.keyLen = 32 → i.msgLen = j.msgLen ∧ ∃ k m,
      readView s i.keyPtr 32 = .ok k ∧ readView u j.keyPtr 32 = .ok k ∧
      readView s i.msgPtr i.msgLen = .ok m ∧ readView u j.msgPtr j.msgLen = .ok m) →
    ∃ t v r, exec i s = .next t ∧ exec j u = .next v ∧ t.resp = some r ∧ v.resp = some r

/-! ### Steps -/

/-- A step runs the decoded request: with PHASE = WORKING, a request that decodes, and no host command chosen,
the step is that operation's meaning, on the state whose turn has passed (assumption 3). -/
def Obligations.StepRunsDecodedRequest : Prop :=
  ∀ (s : State) (q : Request) (i : Instr), s.phase = .working → s.req = some q → decode q = .ok i →
    hostChoice s = none → step s = exec i { s with sched := s.sched.tail }

/-- A step runs the host's command: where sequence k is chosen, the step is its next command's effect, on the
state in which that command is gone and the turn has passed (assumptions 2 and 3). -/
def Obligations.StepRunsHostCommand : Prop :=
  ∀ (s : State) (k : Nat) (c : Command), hostChoice s = some k → nextCommand s k = some c →
    step s = runCommand c { s with
      streams := s.streams.modify k List.tail, sched := s.sched.tail }

/-- Each row of the opcode table, placed where the block performs it, is performed by the next step. The
placing is the model's (assumptions 12 and 13). -/
def Obligations.PlacedWordRuns : Prop :=
  ∀ (s : State) (w : Nat), w < 5 →
    ∃ i, decodeTableWord 64 w = some i ∧ i.opCode.toNat = w ∧
      step (s.withFetchWord 64 w) = exec i (s.withFetchWord 64 w)

/-- Every agent that can move is moved by some turn: a turn for a sequence whose command is enabled runs that
command, and a turn for the block runs an enabled PERFORM (10_state.md R15; the turns are assumption 3). -/
def Obligations.TurnsReachEveryAgent : Prop :=
  ∀ (s : State) (ts : List Turn),
    (∀ k c, s.sched = .stream k :: ts → nextCommand s k = some c → commandEnabled s c = true →
      step s = runCommand c { s with streams := s.streams.modify k List.tail, sched := ts }) ∧
    (s.sched = .block :: ts → performEnabled s = true → step s = perform { s with sched := ts })

/-- 70_reset_and_hazards.md R121: PERFORM of a legal descriptor with key_len = 32 and admitted views is
enabled once PHASE = WORKING and ends in RESPONDING in one step; with no turn given the next step takes it
(that default is assumption 3). -/
def Obligations.AdmittedRequestCompletes : Prop :=
  ∀ (s : State) (q : Request) (i : Instr), s.phase = .working → s.req = some q → decode q = .ok i →
    q.keyLen = 32 → (∀ j, j < 32 → memRead s (q.keyPtr + j) ≠ none) →
    (∀ j, j < q.msgLen → memRead s (q.msgPtr + j) ≠ none) →
    performEnabled s = true ∧
      (∃ t r, perform s = .next t ∧ t.phase = .responding ∧ t.resp = some r ∧ r.status = .ok) ∧
      (s.sched = [] → step s = perform s)

/-- 42_entry_operations.md R81: when SUBMIT is enabled, and what it latches. -/
def Obligations.SubmitLatchesDescriptor : Prop :=
  ∀ (s : State) (d : Descriptor),
    (commandEnabled s (.submit d) = true ↔ s.gate = .ready ∧ s.phase = .idle) ∧
    (s.gate = .ready → s.phase = .idle → d.fits s.params.addrWidth s.params.lenWidth = true →
      runCommand (.submit d) s = .next { s with
        phase := .working,
        req := some {
            op := d.w0.extractLsb' 0 3, rsvd := d.w0.extractLsb' 3 61,
            keyPtr := d.w1, keyLen := d.w2, msgPtr := d.w3, msgLen := d.w4 } })

/-- 42_entry_operations.md R83: TAKE delivers RESP and clears the operation; elsewhere it has no step. -/
def Obligations.TakeDeliversAndClears : Prop :=
  ∀ s : State, (commandEnabled s .take = true ↔ s.phase = .responding) ∧
    (∀ r, s.phase = .responding → s.resp = some r →
      runCommand .take s = .next { s with
        req := none, lane := none, h := none, resp := none, phase := .idle,
        observed := s.observed ++ [.taken r] }) ∧
    (s.phase ≠ .responding → runCommand .take s = .fault .notEnabled)

/-- 42_entry_operations.md R84: INIT. -/
def Obligations.InitDecidesGateOnce : Prop :=
  ∀ s : State, commandEnabled s .init = true ∧
    (s.gate = .uninit → s.params.capability = true →
      runCommand .init s = .next { s with gate := .ready } ∧ gateStatus { s with gate := .ready } = 1#2) ∧
    (s.gate = .uninit → s.params.capability = false →
      runCommand .init s = .next { s with gate := .failed } ∧ gateStatus { s with gate := .failed } = 2#2) ∧
    (s.gate = .ready ∨ s.gate = .failed → runCommand .init s = .next s)

/-- 70_reset_and_hazards.md R108: RESET. The host's record of discarded SUBMITs, no state element of the
block, follows in DiscardedSubmitNeverEndsRun (assumption 17). -/
def Obligations.ResetClearsBlock : Prop :=
  ∀ s : State, commandEnabled s .reset = true ∧
    ∃ t, runCommand .reset s = .next t ∧ t = { s with
      gate := .uninit, phase := .idle, req := none, lane := none, h := none, resp := none,
      discarded := t.discarded }

/-- 70_reset_and_hazards.md R108, R109: at power-on the block is as RESET leaves it. -/
def Obligations.PowerOnEqualsReset : Prop :=
  blockOf State.reset = (.uninit, .idle, none, none, none, none) ∧
    ∀ s t : State, runCommand .reset s = .next t → blockOf t = blockOf State.reset

/-- 10_state.md R18, R19: the host-visible signals, with GATE's codes. That a read of them is a command of the
host that completes and is recorded in `observed` is the model's choice (assumption 10). -/
def Obligations.SignalsShowState : Prop :=
  ∀ s : State,
    (s.gate = .uninit → gateStatus s = 0#2) ∧ (s.gate = .ready → gateStatus s = 1#2) ∧
    (s.gate = .failed → gateStatus s = 2#2) ∧
    (busy s = true ↔ s.phase ≠ .idle) ∧ (respValid s = true ↔ s.phase = .responding) ∧
    runCommand .readSignals s = .next { s with
      observed := s.observed ++ [.signals (gateStatus s) (busy s) (respValid s)] }

/-- 70_reset_and_hazards.md R117, 30_encoding.md R55, R56: RESP is read only while resp_valid holds, and only
in the fields its STATUS and KIND set; any other read is a fault. STATUS reads as the code of R56, KIND, LEN
and U32 as their numbers, DATA as its bytes. That a read is a command of the host that completes and is
recorded in `observed` is the model's choice (assumption 10). -/
def Obligations.ReadOfUnsetFieldFaults : Prop :=
  ∀ s : State,
    (∀ f, s.phase ≠ .responding → runCommand (.readResp f) s = .fault (.readBottom .resp)) ∧
    ∀ r, s.phase = .responding → s.resp = some r → responseWf r →
      (∃ n, (r.status = .ok → n = 0) ∧ (r.status = .invalidKeyLength → n = 1) ∧
        (r.status = .illegalOperation → n = 2) ∧
        runCommand (.readResp .status) s =
          .next { s with observed := s.observed ++ [.field .status (.bits n)] }) ∧
      (r.status ≠ .ok → ∀ f, f ≠ .status →
        runCommand (.readResp f) s = .fault (.readBottom (.respField f))) ∧
      (r.status = .ok → ∃ k n d, r.kind = some k ∧ r.len = some n ∧ r.data = some d ∧
        runCommand (.readResp .kind) s =
          .next { s with observed := s.observed ++ [.field .kind (.bits k.toNat)] } ∧
        runCommand (.readResp .len) s =
          .next { s with observed := s.observed ++ [.field .len (.bits n.toNat)] } ∧
        runCommand (.readResp .data) s =
          .next { s with observed := s.observed ++ [.field .data (.bytes d)] } ∧
        (k = 0b011#3 ∨ k = 0b100#3 → ∃ v, r.u32 = some v ∧ runCommand (.readResp .u32) s =
          .next { s with observed := s.observed ++ [.field .u32 (.bits v.toNat)] }) ∧
        (k ≠ 0b011#3 → k ≠ 0b100#3 →
          runCommand (.readResp .u32) s = .fault (.readBottom (.respField .u32))))

/-- 30_encoding.md R58, 20_memory.md R29: a host write that touches no view in flight completes; its bytes
read back, and nothing else changes. That a write admits its bytes is the model's reading (assumption 6) of
95_test_vectors.md section 3, where the addresses of the `.mem` lines form ADMIT; that one which touches a
view in flight waits instead is assumption 9. -/
def Obligations.HostWriteAdmitsBytes : Prop :=
  ∀ (s : State) (a : Nat) (bs : List Byte), touchesFlight s a bs.length = false →
    a + bs.length ≤ 2 ^ s.params.addrWidth →
    ∃ t, runCommand (.write a bs) s = .next t ∧ t = { s with mem := t.mem } ∧ viewHolds t a bs ∧
      ∀ x, x < a ∨ a + bs.length ≤ x → memRead t x = memRead s x

/-- The host's withdrawal of bytes from ADMIT, where it touches no view that the operation in flight reads:
the model's own command (assumption 9). -/
def Obligations.WithdrawalEndsAdmission : Prop :=
  ∀ (s : State) (a n : Nat), touchesReads s a n = false → a + n ≤ 2 ^ s.params.addrWidth →
    ∃ t, runCommand (.withdraw a n) s = .next t ∧ t = { s with mem := t.mem } ∧
      (∀ x, a ≤ x → x < a + n → memRead t x = none) ∧
      ∀ x, x < a ∨ a + n ≤ x → memRead t x = memRead s x

/-- A host command whose operand does not fit its field is refused (30_encoding.md R47, 60_exceptions.md R93;
the refusal is assumption 8). -/
def Obligations.MalformedCommandIsRefused : Prop :=
  ∀ s : State,
    (∀ d, s.gate = .ready → s.phase = .idle → d.fits s.params.addrWidth s.params.lenWidth = false →
      runCommand (.submit d) s = .refused .malformedCommand) ∧
    (∀ a bs, touchesFlight s a bs.length = false → 2 ^ s.params.addrWidth < a + bs.length →
      runCommand (.write a bs) s = .refused .malformedCommand) ∧
    (∀ a n, touchesReads s a n = false → 2 ^ s.params.addrWidth < a + n →
      runCommand (.withdraw a n) s = .refused .malformedCommand)

/-- 70_reset_and_hazards.md R119, R113: a command that is not enabled waits and is not lost: a step of any
other agent leaves it where it is. R113 is marked as derived by the spec. That a held command holds its whole
sequence, of which nothing moves, is the model's choice (assumption 2), and so is that a host write or a
withdrawal that touches a view in flight waits (assumption 9). -/
def Obligations.HeldCommandWaits : Prop :=
  ∀ (s t : State) (k : Nat) (c : Command), nextCommand s k = some c → commandEnabled s c = false →
    step s = .next t → hostChoice s ≠ some k ∧ t.streams[k]? = s.streams[k]?

/-- 70_reset_and_hazards.md R119: what holds a SUBMIT and a TAKE, and what lifts each hold. -/
def Obligations.HoldsAndTheirLifting : Prop :=
  ∀ (s : State) (d : Descriptor),
    (s.gate = .uninit → commandEnabled s (.submit d) = false) ∧
    (s.phase ≠ .idle → commandEnabled s (.submit d) = false) ∧
    (s.phase ≠ .responding → commandEnabled s .take = false) ∧
    (s.gate = .uninit → s.phase = .idle → s.params.capability = true →
      ∃ t, runCommand .init s = .next t ∧ commandEnabled t (.submit d) = true) ∧
    (∀ t, perform s = .next t → commandEnabled t .take = true) ∧
    (s.gate = .ready → ∀ t, runCommand .take s = .next t → commandEnabled t (.submit d) = true)

/-! ### What every step keeps -/

/-- The invariant holds at power-on. -/
def Obligations.ResetMeetsInvariant : Prop := Inv State.reset

/-- Every step from a state that meets the invariant ends in one: the widths keep their bounds, host memory
its canonical form, LANE and H are ⊥ between steps, REQ and RESP are ⊥ when idle, a request is in flight only
in an initialised block, and RESP answers the request in flight. -/
def Obligations.StepKeepsInvariant : Prop :=
  ∀ s t : State, Inv s → step s = .next t → Inv t

/-- 20_memory.md R29: every step keeps host memory in canonical form, from any state. -/
def Obligations.StepKeepsMemoryCanonical : Prop :=
  ∀ s t : State, Memory.wf s.params.addrWidth s.mem → step s = .next t →
    Memory.wf t.params.addrWidth t.mem

/-- 10_state.md R14: no step changes a parameter. -/
def Obligations.StepKeepsParameters : Prop :=
  ∀ s t : State, step s = .next t → t.params = s.params

/-- 10_state.md R19, R20: only INIT and RESET change GATE, and INIT only while it is UNINIT: once READY or
FAILED it keeps that value until the next RESET. -/
def Obligations.GateChangesOnlyByInitOrReset : Prop :=
  ∀ s t : State, step s = .next t → t.gate ≠ s.gate →
    ∃ k c, hostChoice s = some k ∧ nextCommand s k = some c ∧
      (c = .reset ∧ t.gate = .uninit ∨ c = .init ∧ s.gate = .uninit)

/-- 10_state.md R21: the only ways PHASE changes, and its reset value. -/
def Obligations.PhaseFollowsProtocol : Prop :=
  State.reset.phase = .idle ∧
  ∀ s t : State, step s = .next t → t.phase ≠ s.phase →
    (∃ k d, hostChoice s = some k ∧ nextCommand s k = some (.submit d) ∧
      s.phase = .idle ∧ t.phase = .working) ∨
    (hostChoice s = none ∧ s.phase = .working ∧ t.phase = .responding) ∨
    (∃ k, hostChoice s = some k ∧ nextCommand s k = some .take ∧
      s.phase = .responding ∧ t.phase = .idle) ∨
    (∃ k, hostChoice s = some k ∧ nextCommand s k = some .reset ∧ t.phase = .idle)

/-- 10_state.md R22: only SUBMIT writes a request into REQ; TAKE and RESET empty it; no other step changes it. -/
def Obligations.RequestWrittenOnlyBySubmit : Prop :=
  ∀ s t : State, step s = .next t → t.req ≠ s.req →
    ∃ k c, hostChoice s = some k ∧ nextCommand s k = some c ∧
      ((∃ d, c = .submit d ∧ s.gate = .ready ∧ s.phase = .idle ∧ t.req = some d.latch) ∨
        (c = .take ∨ c = .reset) ∧ t.req = none)

/-- 60_exceptions.md R92: while GATE = FAILED in an idle block, no step but RESET ends it and no request is
accepted; where every sequence waits with a SUBMIT, or has ended, and one waits, the run is stuck. -/
def Obligations.FailedGateAcceptsNoRequest : Prop :=
  (∀ s t : State, s.gate = .failed → s.phase = .idle → step s = .next t →
    t.phase = .idle ∧ (t.gate = .failed ∨
      ∃ k, hostChoice s = some k ∧ nextCommand s k = some .reset)) ∧
  (∀ s : State, s.gate = .failed → s.phase = .idle → submitWaits s = true →
    (∀ k c, nextCommand s k = some c → ∃ d, c = .submit d) → step s = .fault .stuckGateFailed)

/-- 20_memory.md R31: the block never writes host memory; only a host write or a withdrawal changes it. -/
def Obligations.BlockNeverWritesMemory : Prop :=
  ∀ s t : State, step s = .next t → t.mem ≠ s.mem →
    ∃ k c, hostChoice s = some k ∧ nextCommand s k = some c ∧
      ((∃ a bs, c = .write a bs) ∨ ∃ a n, c = .withdraw a n)

/-- 20_memory.md R40, 70_reset_and_hazards.md R116, R118: while an operation is in flight no step changes, or
stops admitting, a byte that the operation reads; and no step changes a byte of either view, though a
withdrawal may end the admission of one that is never read. These are duties of the host in the spec, which
has no command of withdrawal: that a host write or a withdrawal that would break them waits is the model's
choice (assumption 9). -/
def Obligations.ViewsAreStableInFlight : Prop :=
  ∀ (s t : State) (q : Request) (a : Nat), s.phase ≠ .idle → s.req = some q → step s = .next t →
    (inReadViews q a → memRead t a = memRead s a) ∧
    (inViews q a → memRead t a = memRead s a ∨ memRead t a = none ∧
      ∃ k x n, hostChoice s = some k ∧ nextCommand s k = some (.withdraw x n))

/-- 70_reset_and_hazards.md R118, 20_memory.md R34: a view that is never read need not be admitted. In flight,
a withdrawal waits exactly where it touches a byte that PERFORM reads: none of an illegal request or of one
whose key_len is not 32, and none of a message view with msg_len = 0. The command is the model's (assumption
9). -/
def Obligations.UnreadViewsMayBeWithdrawn : Prop :=
  ∀ (s : State) (q : Request) (a n : Nat), s.phase ≠ .idle → s.req = some q →
    (commandEnabled s (.withdraw a n) = false ↔ ∃ x, a ≤ x ∧ x < a + n ∧ inReadViews q x) ∧
    ((∀ i, decode q ≠ .ok i) ∨ q.keyLen ≠ 32 → commandEnabled s (.withdraw a n) = true) ∧
    (q.msgLen = 0 → a + n ≤ q.keyPtr ∨ q.keyPtr + q.keyLen ≤ a →
      commandEnabled s (.withdraw a n) = true)

/-- 70_reset_and_hazards.md R110: a RESET discards the operation in flight: no response is delivered, memory
is as it was, and a new INIT is needed before any request. -/
def Obligations.ResetDiscardsOperation : Prop :=
  ∀ (s t : State) (k : Nat), s.phase ≠ .idle → hostChoice s = some k →
    nextCommand s k = some .reset → step s = .next t →
    t.phase = .idle ∧ t.req = none ∧ t.resp = none ∧ takenResponses t = takenResponses s ∧
      t.mem = s.mem ∧ t.gate = .uninit ∧ ∀ d, commandEnabled t (.submit d) = false

/-- 42_entry_operations.md R83, 60_exceptions.md R95: the record of responses grows only by a TAKE, by the
response in RESP. -/
def Obligations.ResponsesComeOnlyByTake : Prop :=
  ∀ s t : State, step s = .next t →
    takenResponses t = takenResponses s ∨
    ∃ k r, hostChoice s = some k ∧ nextCommand s k = some .take ∧ s.phase = .responding ∧
      s.resp = some r ∧ takenResponses t = takenResponses s ++ [r]

/-- 70_reset_and_hazards.md R122: the end of a run, which is neither stuck nor faulted. R122 asks that every
SUBMIT issued has been followed by its TAKE; that this is read as no command left and no SUBMIT discarded by a
RESET is the model's (assumptions 7 and 17), and so is that the step answers the same state there (assumption
7), so that the run stays ended and its observation, the responses taken and gate_status, as it is. -/
def Obligations.EndOfRunIsNeitherStuckNorFaulted : Prop :=
  ∀ s : State,
    (runEnded s = true ↔ s.phase = .idle ∧ (∀ k, nextCommand s k = none) ∧ s.discarded = 0) ∧
    (runEnded s = true → step s = .next { s with sched := s.sched.tail }) ∧
    (runEnded s = true → ∀ t, step s = .next t → runEnded t = true ∧ runObservation t = runObservation s) ∧
    (∀ f, step s = .fault f → runEnded s = false)

/-- 70_reset_and_hazards.md R122, R110: a SUBMIT that a RESET discarded is never followed by its TAKE, so the
run does not end. The record of such SUBMITs, and the fault of a run that has only them left, are the model's
(assumption 17). -/
def Obligations.DiscardedSubmitNeverEndsRun : Prop :=
  (∀ s t : State, runCommand .reset s = .next t →
    (s.phase ≠ .idle → t.discarded = s.discarded + 1) ∧ (s.phase = .idle → t.discarded = s.discarded)) ∧
  (∀ s t : State, step s = .next t → s.discarded ≤ t.discarded ∧
    (s.discarded ≠ 0 → runEnded t = false)) ∧
  (∀ s t : State, step s = .next t → t.discarded ≠ s.discarded →
    ∃ k, hostChoice s = some k ∧ nextCommand s k = some .reset ∧ s.phase ≠ .idle) ∧
  (∀ s : State, s.phase = .idle → (∀ k, nextCommand s k = none) → s.discarded ≠ 0 →
    step s = .fault .stuckDiscarded)
end

