-- ==== Sys2Proof/Laws/Decode.lean ====
section
/-! SUPPORT. What the decoder answers, case by case, and the fields of an encoded operation. -/

namespace Sys2Proof

theorem decode_reserved {r : Request} (h : r.rsvd ≠ 0#61) :
    decode r = .error (.reservedBits r.rsvd) := by
  unfold decode
  rw [if_neg h]

theorem decode_unassigned {r : Request} (h : r.rsvd = 0#61)
    (ho : r.op = 5#3 ∨ r.op = 6#3 ∨ r.op = 7#3) : decode r = .error (.unassignedOp r.op) := by
  unfold decode
  rw [if_pos h]
  rcases ho with ho | ho | ho <;> rw [ho] <;> rfl

theorem decode_asBuffer {r : Request} (h : r.rsvd = 0#61) (ho : r.op = 0#3) :
    decode r = .ok (.asBuffer r.keyPtr r.keyLen r.msgPtr r.msgLen) := by
  unfold decode
  rw [if_pos h, ho]
  rfl

theorem decode_asString {r : Request} (h : r.rsvd = 0#61) (ho : r.op = 1#3) :
    decode r = .ok (.asString r.keyPtr r.keyLen r.msgPtr r.msgLen) := by
  unfold decode
  rw [if_pos h, ho]
  rfl

theorem decode_asHexString {r : Request} (h : r.rsvd = 0#61) (ho : r.op = 2#3) :
    decode r = .ok (.asHexString r.keyPtr r.keyLen r.msgPtr r.msgLen) := by
  unfold decode
  rw [if_pos h, ho]
  rfl

theorem decode_asUInt32Low {r : Request} (h : r.rsvd = 0#61) (ho : r.op = 3#3) :
    decode r = .ok (.asUInt32Low r.keyPtr r.keyLen r.msgPtr r.msgLen) := by
  unfold decode
  rw [if_pos h, ho]
  rfl

theorem decode_asUInt32High {r : Request} (h : r.rsvd = 0#61) (ho : r.op = 4#3) :
    decode r = .ok (.asUInt32High r.keyPtr r.keyLen r.msgPtr r.msgLen) := by
  unfold decode
  rw [if_pos h, ho]
  rfl

/-- The eight values of the OP field. -/
theorem op_cases (o : BitVec 3) :
    o = 0#3 ∨ o = 1#3 ∨ o = 2#3 ∨ o = 3#3 ∨ o = 4#3 ∨ o = 5#3 ∨ o = 6#3 ∨ o = 7#3 := by
  revert o
  decide

/-- An encoded operation's OP field is its code. -/
theorem encode_op (i : Instr) : (encode i).latch.op = i.opCode := by
  have h : ∀ o : BitVec 3, (0#61 ++ o : BitVec 64).extractLsb' 0 3 = o := by decide
  exact h _

/-- An encoded operation's reserved bits are 0. -/
theorem encode_rsvd (i : Instr) : (encode i).latch.rsvd = 0#61 := by
  have h : ∀ o : BitVec 3, (0#61 ++ o : BitVec 64).extractLsb' 3 61 = 0#61 := by decide
  exact h _

/-- What a request that decodes holds: no reserved bit, the operation's code and its operands. -/
theorem decode_ok {r : Request} {i : Instr} (h : decode r = .ok i) :
    r.rsvd = 0#61 ∧ r.op = i.opCode ∧ r.keyPtr = i.keyPtr ∧ r.keyLen = i.keyLen ∧
      r.msgPtr = i.msgPtr ∧ r.msgLen = i.msgLen := by
  by_cases hr : r.rsvd = 0#61
  · rcases op_cases r.op with ho | ho | ho | ho | ho | ho | ho | ho
    · rw [decode_asBuffer hr ho] at h; cases h; exact ⟨hr, ho, rfl, rfl, rfl, rfl⟩
    · rw [decode_asString hr ho] at h; cases h; exact ⟨hr, ho, rfl, rfl, rfl, rfl⟩
    · rw [decode_asHexString hr ho] at h; cases h; exact ⟨hr, ho, rfl, rfl, rfl, rfl⟩
    · rw [decode_asUInt32Low hr ho] at h; cases h; exact ⟨hr, ho, rfl, rfl, rfl, rfl⟩
    · rw [decode_asUInt32High hr ho] at h; cases h; exact ⟨hr, ho, rfl, rfl, rfl, rfl⟩
    · rw [decode_unassigned hr (.inl ho)] at h; cases h
    · rw [decode_unassigned hr (.inr (.inl ho))] at h; cases h
    · rw [decode_unassigned hr (.inr (.inr ho))] at h; cases h
  · rw [decode_reserved hr] at h; cases h

end Sys2Proof
end

