-- ==== Sys2Proof/Laws/Encoders.lean ====
section
/-! SUPPORT. The pieces of the encoders and of the lane assembly: the byte and the nibble a shift and a mask
cut out, a decimal digit, the decimal loop's accumulator, and LE64 of 8 bytes as a sum. -/

namespace Sys2Proof.Machine

theorem byte_of_shift (h : Word64) (k : Nat) :
    ((h >>> k) &&& 0xff#64).setWidth 8 = h.extractLsb' k 8 := by
  have hb : ∀ n (hn : n < 8), (0xff#8)[n] = true := by decide
  apply BitVec.eq_of_getLsbD_eq
  intro n hn
  simp [hn, hb n hn]

theorem nibble_of_shift (h : Word64) (k : Nat) :
    ((h >>> k) &&& 0xf#64).toNat = (h.extractLsb' k 4).toNat := by
  simp only [BitVec.toNat_and, BitVec.toNat_ushiftRight, BitVec.extractLsb'_toNat]
  exact Nat.and_two_pow_sub_one_eq_mod _ 4

theorem decDigit_toNat {d : Nat} (h : d < 10) : (decDigit d).toNat = 0x30 + d := by
  simp only [decDigit, BitVec.toNat_ofNat]
  omega

theorem decLoop_append (fuel v : Nat) (s : List Byte) :
    decLoop fuel v s = decLoop fuel v [] ++ s := by
  induction fuel generalizing v s with
  | zero => rfl
  | succ n ih =>
    simp only [decLoop]
    split
    · rfl
    · rw [ih _ (decDigit _ :: s), ih _ [decDigit _]]
      simp

theorem leNat_lt (bs : List Byte) : leNat bs < 2 ^ (8 * bs.length) := by
  induction bs with
  | nil => simp [leNat]
  | cons b bs ih =>
    have hb := b.isLt
    have : 2 ^ (8 * (b :: bs).length) = 256 * 2 ^ (8 * bs.length) := by
      rw [List.length_cons, Nat.mul_add, Nat.pow_add, Nat.mul_comm]
    simp only [leNat]
    omega

theorem le64_toNat_eight (b0 b1 b2 b3 b4 b5 b6 b7 : Byte) :
    (le64 [b0, b1, b2, b3, b4, b5, b6, b7]).toNat =
      b0.toNat + b1.toNat * 2 ^ 8 + b2.toNat * 2 ^ 16 + b3.toNat * 2 ^ 24 + b4.toNat * 2 ^ 32 +
        b5.toNat * 2 ^ 40 + b6.toNat * 2 ^ 48 + b7.toNat * 2 ^ 56 := by
  have := leNat_lt [b0, b1, b2, b3, b4, b5, b6, b7]
  simp only [List.length_cons, List.length_nil] at this
  rw [le64, BitVec.toNat_ofNat, Nat.mod_eq_of_lt this]
  simp only [leNat]
  omega

end Sys2Proof.Machine
end

