-- ==== Sys2Proof/Laws/Memory.lean ====
section
/-! SUPPORT. Host memory: a read after a write, and every memory operation keeps the canonical form. -/

namespace Sys2Proof.Machine

theorem lookup_insert_same (m : Memory) (a : Nat) (b : Byte) :
    Memory.lookup (Memory.insert m a b) a = some b := by
  induction m with
  | nil => simp [Memory.insert, Memory.lookup]
  | cons c cs ih =>
    unfold Memory.insert
    split
    · simp [Memory.lookup]
    · split
      · simp [Memory.lookup]
      · simp only [Memory.lookup]
        rw [if_neg (by omega), ih]

theorem lookup_insert_other (m : Memory) {a x : Nat} (b : Byte) (hx : x ≠ a) :
    Memory.lookup (Memory.insert m a b) x = Memory.lookup m x := by
  induction m with
  | nil => simp [Memory.insert, Memory.lookup, Ne.symm hx]
  | cons c cs ih =>
    unfold Memory.insert
    split
    · simp [Memory.lookup, Ne.symm hx]
    · split
      · rename_i _ h
        simp [Memory.lookup, Ne.symm hx, ← h]
      · simp only [Memory.lookup, ih]

theorem lookup_write_other (bs : List Byte) (m : Memory) {a x : Nat}
    (hx : x < a ∨ a + bs.length ≤ x) :
    Memory.lookup (Memory.write m a bs) x = Memory.lookup m x := by
  induction bs generalizing m a with
  | nil => rfl
  | cons b bs ih =>
    simp only [List.length_cons] at hx
    rw [Memory.write, ih _ (by omega), lookup_insert_other _ _ (by omega)]

theorem lookup_write_inside (bs : List Byte) (m : Memory) (a i : Nat) (b : Byte)
    (hi : bs[i]? = some b) : Memory.lookup (Memory.write m a bs) (a + i) = some b := by
  induction bs generalizing m a i with
  | nil => simp at hi
  | cons c cs ih =>
    rw [Memory.write]
    cases i with
    | zero =>
      rw [lookup_write_other _ _ (by omega)]
      simp only [List.getElem?_cons_zero, Option.some.injEq] at hi
      simpa [hi] using lookup_insert_same m a b
    | succ n =>
      have := ih (Memory.insert m a c) (a + 1) n (by simpa using hi)
      rwa [show a + 1 + n = a + (n + 1) by omega] at this

theorem lookup_withdraw (m : Memory) (a n x : Nat) :
    Memory.lookup (Memory.withdraw m a n) x =
      if a ≤ x ∧ x < a + n then none else Memory.lookup m x := by
  induction m with
  | nil => simp [Memory.withdraw, Memory.lookup]
  | cons c cs ih =>
    unfold Memory.withdraw at ih ⊢
    rw [List.filter_cons]
    by_cases hc : a ≤ c.1 ∧ c.1 < a + n
    · rw [if_neg (by simp [hc]), ih, Memory.lookup]
      by_cases hx : c.1 = x
      · simp [← hx, hc]
      · simp [hx]
    · rw [if_pos (by simp only [Bool.not_eq_true', Bool.and_eq_false_iff, decide_eq_false_iff_not]; omega)]
      simp only [Memory.lookup, ih]
      by_cases hx : c.1 = x
      · subst hx; simp [hc]
      · simp [hx]

theorem mem_insert {m : Memory} {a : Nat} {b : Byte} {c : Host.Cell}
    (h : c ∈ Memory.insert m a b) : c.1 = a ∨ c ∈ m := by
  induction m with
  | nil => simp only [Memory.insert, List.mem_singleton] at h; simp [h]
  | cons d ds ih =>
    unfold Memory.insert at h
    split at h
    · rcases List.mem_cons.1 h with rfl | h <;> simp_all
    · split at h
      · rcases List.mem_cons.1 h with rfl | h <;> simp_all
      · rcases List.mem_cons.1 h with rfl | h
        · simp
        · rcases ih h with h | h <;> simp [h]

theorem wf_insert {aw : Nat} {m : Memory} {a : Nat} (b : Byte) (hm : Memory.wf aw m)
    (ha : a < 2 ^ aw) : Memory.wf aw (Memory.insert m a b) := by
  refine ⟨?_, fun c hc => (mem_insert hc).elim (fun h => h ▸ ha) (hm.2 c)⟩
  have hp := hm.1
  clear hm
  induction m with
  | nil => simp [Memory.insert]
  | cons c cs ih =>
    have hc := List.pairwise_cons.1 hp
    unfold Memory.insert
    split
    · rename_i h
      exact List.pairwise_cons.2 ⟨fun d hd => (List.mem_cons.1 hd).elim (fun e => e ▸ h)
        (fun e => lt_trans h (hc.1 d e)), hp⟩
    · split
      · rename_i _ h
        exact List.pairwise_cons.2 ⟨fun d hd => h ▸ hc.1 d hd, hc.2⟩
      · exact List.pairwise_cons.2 ⟨fun d hd => (mem_insert hd).elim
          (fun e => by omega) (hc.1 d), ih hc.2⟩

theorem wf_write {aw : Nat} {m : Memory} {a : Nat} {bs : List Byte} (hm : Memory.wf aw m)
    (ha : a + bs.length ≤ 2 ^ aw) : Memory.wf aw (Memory.write m a bs) := by
  induction bs generalizing m a with
  | nil => exact hm
  | cons b bs ih =>
    simp only [List.length_cons] at ha
    exact ih (wf_insert b hm (by omega)) (by omega)

theorem wf_withdraw {aw : Nat} {m : Memory} (a n : Nat) (hm : Memory.wf aw m) :
    Memory.wf aw (Memory.withdraw m a n) :=
  ⟨hm.1.filter _, fun c hc => hm.2 c (List.mem_filter.1 hc).1⟩

theorem wf_reset : Memory.wf State.reset.params.addrWidth State.reset.mem :=
  ⟨List.Pairwise.nil, fun c hc => absurd hc (by simp [State.reset])⟩

/-- Only the memory and the address width decide what a view holds. -/
theorem memRead_congr {s t : State} (hm : t.mem = s.mem) (hp : t.params = s.params) (a : Nat) :
    memRead t a = memRead s a := by
  simp [memRead, hm, hp]

theorem readView_congr {s t : State} (hm : t.mem = s.mem) (hp : t.params = s.params)
    (ptr n : Nat) : readView t ptr n = readView s ptr n := by
  induction n generalizing ptr with
  | zero => rfl
  | succ n ih => simp [readView, memRead_congr hm hp, ih]

theorem readView_succ_ok {s : State} {ptr n : Nat} {bs : List Byte}
    (h : readView s ptr (n + 1) = .ok bs) :
    ∃ b cs, bs = b :: cs ∧ memRead s ptr = some b ∧ readView s (ptr + 1) n = .ok cs := by
  simp only [readView] at h
  split at h
  · cases h
  · split at h
    · cases h
    · cases h
      exact ⟨_, _, rfl, ‹_›, ‹_›⟩

theorem readView_length {s : State} {ptr n : Nat} {bs : List Byte}
    (h : readView s ptr n = .ok bs) : bs.length = n := by
  induction n generalizing ptr bs with
  | zero => cases h; rfl
  | succ n ih =>
    obtain ⟨b, cs, rfl, -, hc⟩ := readView_succ_ok h
    simp [ih hc]

/-- A view with an unadmitted address is not read: it stops at such an address. -/
theorem readView_error_of_none {s : State} {ptr n : Nat}
    (h : ∃ j, j < n ∧ memRead s (ptr + j) = none) :
    ∃ a, readView s ptr n = .error a ∧ ptr ≤ a ∧ a < ptr + n ∧ memRead s a = none := by
  induction n generalizing ptr with
  | zero => obtain ⟨j, hj, -⟩ := h; omega
  | succ n ih =>
    simp only [readView]
    cases hb : memRead s ptr with
    | none => exact ⟨ptr, rfl, by omega, by omega, hb⟩
    | some b =>
      obtain ⟨j, hj, hn⟩ := h
      have hj0 : j ≠ 0 := by rintro rfl; simp [hb] at hn
      obtain ⟨a, ha, h1, h2, h3⟩ := ih (ptr := ptr + 1)
        ⟨j - 1, by omega, by rwa [show ptr + 1 + (j - 1) = ptr + j by omega]⟩
      exact ⟨a, by rw [ha], by omega, by omega, h3⟩

/-- A view all of whose addresses are admitted is read. -/
theorem readView_ok_of_admitted {s : State} {ptr n : Nat}
    (h : ∀ j, j < n → memRead s (ptr + j) ≠ none) : ∃ bs, readView s ptr n = .ok bs := by
  induction n generalizing ptr with
  | zero => exact ⟨[], rfl⟩
  | succ n ih =>
    obtain ⟨b, hb⟩ := Option.ne_none_iff_exists'.1 (h 0 (by omega))
    obtain ⟨bs, hbs⟩ := ih (ptr := ptr + 1) (fun j hj => by
      rw [show ptr + 1 + j = ptr + (j + 1) by omega]
      exact h _ (by omega))
    simp only [Nat.add_zero] at hb
    exact ⟨b :: bs, by simp [readView, hb, hbs]⟩

end Sys2Proof.Machine
end

