-- ==== Sys2Proof/Laws/State.lean ====
section
/-! SUPPORT. One lemma per field per named update of State, true by rfl. -/

namespace Sys2Proof.Machine

@[simp] theorem raise_gate (st : Status) (s : State) :
    (raise st s).gate = s.gate := rfl
@[simp] theorem raise_phase (st : Status) (s : State) :
    (raise st s).phase = .responding := rfl
@[simp] theorem raise_req (st : Status) (s : State) :
    (raise st s).req = s.req := rfl
@[simp] theorem raise_lane (st : Status) (s : State) :
    (raise st s).lane = s.lane := rfl
@[simp] theorem raise_h (st : Status) (s : State) :
    (raise st s).h = s.h := rfl
@[simp] theorem raise_resp (st : Status) (s : State) :
    (raise st s).resp = some (errorResponse st) := rfl
@[simp] theorem raise_mem (st : Status) (s : State) :
    (raise st s).mem = s.mem := rfl
@[simp] theorem raise_streams (st : Status) (s : State) :
    (raise st s).streams = s.streams := rfl
@[simp] theorem raise_sched (st : Status) (s : State) :
    (raise st s).sched = s.sched := rfl
@[simp] theorem raise_observed (st : Status) (s : State) :
    (raise st s).observed = s.observed := rfl
@[simp] theorem raise_discarded (st : Status) (s : State) :
    (raise st s).discarded = s.discarded := rfl
@[simp] theorem raise_params (st : Status) (s : State) :
    (raise st s).params = s.params := rfl

@[simp] theorem takeResponse_gate (r : Response) (s : State) :
    (takeResponse r s).gate = s.gate := rfl
@[simp] theorem takeResponse_phase (r : Response) (s : State) :
    (takeResponse r s).phase = .idle := rfl
@[simp] theorem takeResponse_req (r : Response) (s : State) :
    (takeResponse r s).req = none := rfl
@[simp] theorem takeResponse_lane (r : Response) (s : State) :
    (takeResponse r s).lane = none := rfl
@[simp] theorem takeResponse_h (r : Response) (s : State) :
    (takeResponse r s).h = none := rfl
@[simp] theorem takeResponse_resp (r : Response) (s : State) :
    (takeResponse r s).resp = none := rfl
@[simp] theorem takeResponse_mem (r : Response) (s : State) :
    (takeResponse r s).mem = s.mem := rfl
@[simp] theorem takeResponse_streams (r : Response) (s : State) :
    (takeResponse r s).streams = s.streams := rfl
@[simp] theorem takeResponse_sched (r : Response) (s : State) :
    (takeResponse r s).sched = s.sched := rfl
@[simp] theorem takeResponse_observed (r : Response) (s : State) :
    (takeResponse r s).observed = s.observed ++ [.taken r] := rfl
@[simp] theorem takeResponse_discarded (r : Response) (s : State) :
    (takeResponse r s).discarded = s.discarded := rfl
@[simp] theorem takeResponse_params (r : Response) (s : State) :
    (takeResponse r s).params = s.params := rfl

@[simp] theorem finish_gate (s : State) :
    (finish s).gate = s.gate := rfl
@[simp] theorem finish_phase (s : State) :
    (finish s).phase = .responding := rfl
@[simp] theorem finish_req (s : State) :
    (finish s).req = s.req := rfl
@[simp] theorem finish_lane (s : State) :
    (finish s).lane = none := rfl
@[simp] theorem finish_h (s : State) :
    (finish s).h = none := rfl
@[simp] theorem finish_resp (s : State) :
    (finish s).resp = s.resp := rfl
@[simp] theorem finish_mem (s : State) :
    (finish s).mem = s.mem := rfl
@[simp] theorem finish_streams (s : State) :
    (finish s).streams = s.streams := rfl
@[simp] theorem finish_sched (s : State) :
    (finish s).sched = s.sched := rfl
@[simp] theorem finish_observed (s : State) :
    (finish s).observed = s.observed := rfl
@[simp] theorem finish_discarded (s : State) :
    (finish s).discarded = s.discarded := rfl
@[simp] theorem finish_params (s : State) :
    (finish s).params = s.params := rfl

@[simp] theorem resetBlock_gate (s : State) :
    (resetBlock s).gate = .uninit := rfl
@[simp] theorem resetBlock_phase (s : State) :
    (resetBlock s).phase = .idle := rfl
@[simp] theorem resetBlock_req (s : State) :
    (resetBlock s).req = none := rfl
@[simp] theorem resetBlock_lane (s : State) :
    (resetBlock s).lane = none := rfl
@[simp] theorem resetBlock_h (s : State) :
    (resetBlock s).h = none := rfl
@[simp] theorem resetBlock_resp (s : State) :
    (resetBlock s).resp = none := rfl
@[simp] theorem resetBlock_mem (s : State) :
    (resetBlock s).mem = s.mem := rfl
@[simp] theorem resetBlock_streams (s : State) :
    (resetBlock s).streams = s.streams := rfl
@[simp] theorem resetBlock_sched (s : State) :
    (resetBlock s).sched = s.sched := rfl
@[simp] theorem resetBlock_observed (s : State) :
    (resetBlock s).observed = s.observed := rfl
@[simp] theorem resetBlock_discarded (s : State) :
    (resetBlock s).discarded = discardedAfterReset s := rfl
@[simp] theorem resetBlock_params (s : State) :
    (resetBlock s).params = s.params := rfl

@[simp] theorem latchRequest_gate (d : Descriptor) (s : State) :
    (latchRequest d s).gate = s.gate := rfl
@[simp] theorem latchRequest_phase (d : Descriptor) (s : State) :
    (latchRequest d s).phase = .working := rfl
@[simp] theorem latchRequest_req (d : Descriptor) (s : State) :
    (latchRequest d s).req = some d.latch := rfl
@[simp] theorem latchRequest_lane (d : Descriptor) (s : State) :
    (latchRequest d s).lane = s.lane := rfl
@[simp] theorem latchRequest_h (d : Descriptor) (s : State) :
    (latchRequest d s).h = s.h := rfl
@[simp] theorem latchRequest_resp (d : Descriptor) (s : State) :
    (latchRequest d s).resp = s.resp := rfl
@[simp] theorem latchRequest_mem (d : Descriptor) (s : State) :
    (latchRequest d s).mem = s.mem := rfl
@[simp] theorem latchRequest_streams (d : Descriptor) (s : State) :
    (latchRequest d s).streams = s.streams := rfl
@[simp] theorem latchRequest_sched (d : Descriptor) (s : State) :
    (latchRequest d s).sched = s.sched := rfl
@[simp] theorem latchRequest_observed (d : Descriptor) (s : State) :
    (latchRequest d s).observed = s.observed := rfl
@[simp] theorem latchRequest_discarded (d : Descriptor) (s : State) :
    (latchRequest d s).discarded = s.discarded := rfl
@[simp] theorem latchRequest_params (d : Descriptor) (s : State) :
    (latchRequest d s).params = s.params := rfl

@[simp] theorem dropCommand_gate (s : State) (k : Nat) :
    (dropCommand s k).gate = s.gate := rfl
@[simp] theorem dropCommand_phase (s : State) (k : Nat) :
    (dropCommand s k).phase = s.phase := rfl
@[simp] theorem dropCommand_req (s : State) (k : Nat) :
    (dropCommand s k).req = s.req := rfl
@[simp] theorem dropCommand_lane (s : State) (k : Nat) :
    (dropCommand s k).lane = s.lane := rfl
@[simp] theorem dropCommand_h (s : State) (k : Nat) :
    (dropCommand s k).h = s.h := rfl
@[simp] theorem dropCommand_resp (s : State) (k : Nat) :
    (dropCommand s k).resp = s.resp := rfl
@[simp] theorem dropCommand_mem (s : State) (k : Nat) :
    (dropCommand s k).mem = s.mem := rfl
@[simp] theorem dropCommand_streams (s : State) (k : Nat) :
    (dropCommand s k).streams = s.streams.modify k List.tail := rfl
@[simp] theorem dropCommand_sched (s : State) (k : Nat) :
    (dropCommand s k).sched = s.sched := rfl
@[simp] theorem dropCommand_observed (s : State) (k : Nat) :
    (dropCommand s k).observed = s.observed := rfl
@[simp] theorem dropCommand_discarded (s : State) (k : Nat) :
    (dropCommand s k).discarded = s.discarded := rfl
@[simp] theorem dropCommand_params (s : State) (k : Nat) :
    (dropCommand s k).params = s.params := rfl

@[simp] theorem passTurn_gate (s : State) :
    (passTurn s).gate = s.gate := rfl
@[simp] theorem passTurn_phase (s : State) :
    (passTurn s).phase = s.phase := rfl
@[simp] theorem passTurn_req (s : State) :
    (passTurn s).req = s.req := rfl
@[simp] theorem passTurn_lane (s : State) :
    (passTurn s).lane = s.lane := rfl
@[simp] theorem passTurn_h (s : State) :
    (passTurn s).h = s.h := rfl
@[simp] theorem passTurn_resp (s : State) :
    (passTurn s).resp = s.resp := rfl
@[simp] theorem passTurn_mem (s : State) :
    (passTurn s).mem = s.mem := rfl
@[simp] theorem passTurn_streams (s : State) :
    (passTurn s).streams = s.streams := rfl
@[simp] theorem passTurn_sched (s : State) :
    (passTurn s).sched = s.sched.tail := rfl
@[simp] theorem passTurn_observed (s : State) :
    (passTurn s).observed = s.observed := rfl
@[simp] theorem passTurn_discarded (s : State) :
    (passTurn s).discarded = s.discarded := rfl
@[simp] theorem passTurn_params (s : State) :
    (passTurn s).params = s.params := rfl

@[simp] theorem placeRequest_gate (d : Descriptor) (s : State) :
    (placeRequest d s).gate = .ready := rfl
@[simp] theorem placeRequest_phase (d : Descriptor) (s : State) :
    (placeRequest d s).phase = .working := rfl
@[simp] theorem placeRequest_req (d : Descriptor) (s : State) :
    (placeRequest d s).req = some d.latch := rfl
@[simp] theorem placeRequest_lane (d : Descriptor) (s : State) :
    (placeRequest d s).lane = none := rfl
@[simp] theorem placeRequest_h (d : Descriptor) (s : State) :
    (placeRequest d s).h = none := rfl
@[simp] theorem placeRequest_resp (d : Descriptor) (s : State) :
    (placeRequest d s).resp = none := rfl
@[simp] theorem placeRequest_mem (d : Descriptor) (s : State) :
    (placeRequest d s).mem = s.mem := rfl
@[simp] theorem placeRequest_streams (d : Descriptor) (s : State) :
    (placeRequest d s).streams = s.streams := rfl
@[simp] theorem placeRequest_sched (d : Descriptor) (s : State) :
    (placeRequest d s).sched = [] := rfl
@[simp] theorem placeRequest_observed (d : Descriptor) (s : State) :
    (placeRequest d s).observed = s.observed := rfl
@[simp] theorem placeRequest_discarded (d : Descriptor) (s : State) :
    (placeRequest d s).discarded = s.discarded := rfl
@[simp] theorem placeRequest_params (d : Descriptor) (s : State) :
    (placeRequest d s).params = s.params := rfl

@[simp] theorem initGate_gate (s : State) : (initGate s).gate =
    match s.gate with
    | .uninit => if s.params.capability then .ready else .failed
    | .ready => .ready
    | .failed => .failed := by
  cases h : s.gate <;> simp [initGate, h]
@[simp] theorem initGate_phase (s : State) : (initGate s).phase = s.phase := by
  unfold initGate; split <;> rfl
@[simp] theorem initGate_req (s : State) : (initGate s).req = s.req := by
  unfold initGate; split <;> rfl
@[simp] theorem initGate_lane (s : State) : (initGate s).lane = s.lane := by
  unfold initGate; split <;> rfl
@[simp] theorem initGate_h (s : State) : (initGate s).h = s.h := by
  unfold initGate; split <;> rfl
@[simp] theorem initGate_resp (s : State) : (initGate s).resp = s.resp := by
  unfold initGate; split <;> rfl
@[simp] theorem initGate_mem (s : State) : (initGate s).mem = s.mem := by
  unfold initGate; split <;> rfl
@[simp] theorem initGate_streams (s : State) : (initGate s).streams = s.streams := by
  unfold initGate; split <;> rfl
@[simp] theorem initGate_sched (s : State) : (initGate s).sched = s.sched := by
  unfold initGate; split <;> rfl
@[simp] theorem initGate_observed (s : State) : (initGate s).observed = s.observed := by
  unfold initGate; split <;> rfl
@[simp] theorem initGate_discarded (s : State) : (initGate s).discarded = s.discarded := by
  unfold initGate; split <;> rfl
@[simp] theorem initGate_params (s : State) : (initGate s).params = s.params := by
  unfold initGate; split <;> rfl

theorem discardedAfterReset_idle {s : State} (h : s.phase = .idle) :
    discardedAfterReset s = s.discarded := by
  simp [discardedAfterReset, h]

theorem discardedAfterReset_busy {s : State} (h : s.phase ≠ .idle) :
    discardedAfterReset s = s.discarded + 1 := by
  unfold discardedAfterReset
  split
  · contradiction
  all_goals rfl

theorem le_discardedAfterReset (s : State) : s.discarded ≤ discardedAfterReset s := by
  unfold discardedAfterReset
  split <;> omega

end Sys2Proof.Machine
end

