-- ==== Sys2Proof/Laws/Ops.lean ====
section
/-! SUPPORT. For each shared operation, once, everything it can do. -/

namespace Sys2Proof.Machine

open Sys2Proof.Safety

theorem andThen_eq_next {o : Result} {f : State → Result} {t : State} :
    andThen o f = .next t ↔ ∃ s, o = .next s ∧ f s = .next t := by
  cases o <;> simp [andThen]

theorem decompose_of_ok {s : State} {kptr : Nat} {k : List Byte}
    (hk : readView s kptr 32 = .ok k) :
    decompose kptr s = .next { s with lane := some (lanesOf k) } := by
  simp [decompose, Config.keyBytes, hk]

theorem adapt_of_ok {s : State} {mptr mlen : Nat} {m : List Byte} {lanes : Lanes}
    (hm : readView s mptr mlen = .ok m) (hl : s.lane = some lanes) :
    adapt mptr mlen s =
      .next { s with h := some (Config.mix s.params.hashAlgorithm lanes m mlen) } := by
  simp [adapt, hm, hl]

theorem encodeResult_of_some {s : State} {enc : Word64 → Response} {v : Word64}
    (hv : s.h = some v) : encodeResult enc s = .next { s with resp := some (enc v) } := by
  simp [encodeResult, hv]

/-- Everything PERFORM of a legal request can do in the phase that enables it: an error, stuck on the key
view, stuck on the message view, or the result. -/
theorem performRequest_eq {s : State} (hp : s.phase = .working) (kptr klen mptr mlen : Nat)
    (enc : Word64 → Response) :
    performRequest kptr klen mptr mlen enc s =
      if klen ≠ 32 then .next (raise .invalidKeyLength s)
      else match readView s kptr 32 with
        | .error a => .fault (.stuckRead a)
        | .ok k =>
          match readView s mptr mlen with
          | .error a => .fault (.stuckRead a)
          | .ok m => .next { s with
              lane := none, h := none, phase := .responding,
              resp := some (enc (Config.mix s.params.hashAlgorithm (lanesOf k) m mlen)) } := by
  unfold performRequest
  rw [if_neg (by simp [hp])]
  split
  · rfl
  · cases hk : readView s kptr 32 with
    | error a => simp [decompose, Config.keyBytes, hk, andThen]
    | ok k =>
      have hm : readView { s with lane := some (lanesOf k) } mptr mlen = readView s mptr mlen :=
        readView_congr (s := s) (t := { s with lane := some (lanesOf k) }) rfl rfl _ _
      rw [decompose_of_ok hk]
      cases hr : readView s mptr mlen with
      | error a => simp [andThen, adapt, hm, hr]
      | ok m =>
        simp only [andThen]
        rw [adapt_of_ok (hm.trans hr) rfl]
        rfl

theorem performRequest_not_working {s : State} (hp : s.phase ≠ .working) (kptr klen mptr mlen : Nat)
    (enc : Word64 → Response) :
    performRequest kptr klen mptr mlen enc s = .fault .notEnabled := by
  simp [performRequest, hp]

/-- What PERFORM of a legal request leaves when it has a next state. -/
theorem performRequest_next {s t : State} {kptr klen mptr mlen : Nat} {enc : Word64 → Response}
    (h : performRequest kptr klen mptr mlen enc s = .next t) :
    s.phase = .working ∧
      (klen ≠ 32 ∧ t = raise .invalidKeyLength s ∨
        klen = 32 ∧ ∃ k m, readView s kptr 32 = .ok k ∧ readView s mptr mlen = .ok m ∧
          t = { s with
            lane := none, h := none, phase := .responding,
            resp := some (enc (Config.mix s.params.hashAlgorithm (lanesOf k) m mlen)) }) := by
  have hp : s.phase = .working := by
    by_contra hp
    simp [performRequest_not_working hp] at h
  refine ⟨hp, ?_⟩
  rw [performRequest_eq hp] at h
  split at h
  · cases h; exact .inl ⟨‹_›, rfl⟩
  · split at h
    · cases h
    · split at h
      · cases h
      · cases h; exact .inr ⟨by omega, _, _, ‹_›, ‹_›, rfl⟩

/-- The five operations are one computation with five encoders (41_result_encoder.md R78). -/
theorem exec_eq (i : Instr) (s : State) :
    exec i s = performRequest i.keyPtr i.keyLen i.msgPtr i.msgLen (responseOf i) s := by
  cases i <;> rfl

/-- What PERFORM leaves when it has a next state. -/
theorem perform_next {s t : State} (h : perform s = .next t) :
    s.phase = .working ∧ ∃ q, s.req = some q ∧
      ((∃ e, decode q = .error e) ∧ t = raise .illegalOperation s ∨
        ∃ i, decode q = .ok i ∧ exec i s = .next t) := by
  unfold perform at h
  split at h
  · cases h
  · rename_i hp
    refine ⟨by simpa using hp, ?_⟩
    split at h
    · cases h
    · split at h
      · cases h; exact ⟨_, ‹_›, .inl ⟨⟨_, ‹_›⟩, rfl⟩⟩
      · exact ⟨_, ‹_›, .inr ⟨_, ‹_›, h⟩⟩

/-- PERFORM changes nothing but `LANE`, `H`, `RESP` and PHASE, which becomes RESPONDING. -/
theorem perform_frame {s t : State} (h : perform s = .next t) :
    t.phase = .responding ∧ t.gate = s.gate ∧ t.req = s.req ∧ t.mem = s.mem ∧
      t.streams = s.streams ∧ t.sched = s.sched ∧ t.observed = s.observed ∧ t.params = s.params ∧
      t.discarded = s.discarded := by
  obtain ⟨-, q, -, ⟨-, rfl⟩ | ⟨i, -, hi⟩⟩ := perform_next h
  · simp
  · rw [exec_eq] at hi
    obtain ⟨-, ⟨-, rfl⟩ | ⟨-, k, m, -, -, rfl⟩⟩ := performRequest_next hi <;> simp

theorem commandEnabled_submit {s : State} {d : Descriptor} :
    commandEnabled s (.submit d) = true ↔ s.gate = .ready ∧ s.phase = .idle := by
  simp [commandEnabled]

theorem commandEnabled_take {s : State} :
    commandEnabled s .take = true ↔ s.phase = .responding := by
  simp [commandEnabled]

/-- Passing the turn changes no command's enabling condition. -/
@[simp] theorem commandEnabled_passTurn (s : State) (c : Command) :
    commandEnabled (passTurn s) c = commandEnabled s c := by
  cases c <;> rfl

/-- Taking a command off a sequence changes no command's enabling condition. -/
@[simp] theorem commandEnabled_dropCommand (s : State) (k : Nat) (c : Command) :
    commandEnabled (dropCommand s k) c = commandEnabled s c := by
  cases c <;> rfl

theorem overlaps_iff {a n p len : Nat} :
    overlaps a n p len = true ↔ ∃ x, a ≤ x ∧ x < a + n ∧ p ≤ x ∧ x < p + len := by
  simp only [overlaps, Bool.and_eq_true, decide_eq_true_eq]
  constructor
  · rintro ⟨⟨⟨h1, h2⟩, h3⟩, h4⟩
    exact ⟨max a p, by omega, by omega, by omega, by omega⟩
  · rintro ⟨x, h1, h2, h3, h4⟩
    omega

/-- What bytes touch the views in flight: those that hold an address of one. -/
theorem touchesFlight_iff {s : State} {q : Request} {a n : Nat} (hp : s.phase ≠ .idle)
    (hq : s.req = some q) :
    touchesFlight s a n = true ↔ ∃ x, a ≤ x ∧ x < a + n ∧ inViews q x := by
  have : touchesFlight s a n = (overlaps a n q.keyPtr q.keyLen || overlaps a n q.msgPtr q.msgLen) := by
    unfold touchesFlight
    cases hph : s.phase <;> simp_all
  rw [this, Bool.or_eq_true, overlaps_iff, overlaps_iff]
  unfold inViews
  constructor
  · rintro (⟨x, h1, h2, h⟩ | ⟨x, h1, h2, h⟩)
    · exact ⟨x, h1, h2, .inl h⟩
    · exact ⟨x, h1, h2, .inr h⟩
  · rintro ⟨x, h1, h2, h | h⟩
    · exact .inl ⟨x, h1, h2, h⟩
    · exact .inr ⟨x, h1, h2, h⟩

/-- An address of a view in flight is outside any bytes that touch no view in flight. -/
theorem not_touchesFlight {s : State} {q : Request} {a n x : Nat} (hp : s.phase ≠ .idle)
    (hq : s.req = some q) (h : touchesFlight s a n = false) (hx : inViews q x) :
    x < a ∨ a + n ≤ x := by
  by_contra hc
  have := (touchesFlight_iff (a := a) (n := n) hp hq).2 ⟨x, by omega, by omega, hx⟩
  simp [h] at this

/-- An address the operation in flight reads is outside any bytes that touch no view it reads. -/
theorem not_touchesReads {s : State} {q : Request} {a n x : Nat} (hp : s.phase ≠ .idle)
    (hq : s.req = some q) (h : touchesReads s a n = false) (hx : inReadViews q x) :
    x < a ∨ a + n ≤ x := by
  simp only [touchesReads, hq, hx.1, Bool.true_and] at h
  exact not_touchesFlight hp hq h hx.2

/-- A request that PERFORM answers with an error has no view it reads (20_memory.md R34). -/
theorem performReads_eq_true {q : Request} :
    performReads q = true ↔ (∃ i, decode q = .ok i) ∧ q.keyLen = 32 := by
  unfold performReads
  cases decode q <;> simp [Config.keyBytes]

/-- A host command with a next state was enabled, and this is its effect. -/
theorem runCommand_next {c : Command} {s t : State} (h : runCommand c s = .next t) :
    commandEnabled s c = true ∧
      match c with
      | .reset => t = resetBlock s
      | .init => t = initGate s
      | .submit d => d.fits s.params.addrWidth s.params.lenWidth = true ∧ t = latchRequest d s
      | .take => ∃ r, s.resp = some r ∧ t = takeResponse r s
      | .write a bs => a + bs.length ≤ 2 ^ s.params.addrWidth ∧
          t = { s with mem := Memory.write s.mem a bs }
      | .withdraw a n => a + n ≤ 2 ^ s.params.addrWidth ∧
          t = { s with mem := Memory.withdraw s.mem a n }
      | .readSignals => t = { s with
          observed := s.observed ++ [.signals (gateStatus s) (busy s) (respValid s)] }
      | .readResp f => ∃ v, readRespField s f = .ok v ∧
          t = { s with observed := s.observed ++ [.field f v] } := by
  unfold runCommand at h
  split at h
  · refine ⟨‹_›, ?_⟩
    cases c with
    | reset => cases h; rfl
    | init => cases h; rfl
    | submit d =>
      simp only [runSubmit] at h
      split at h
      · cases h; exact ⟨‹_›, rfl⟩
      · cases h
    | take =>
      simp only [runTake] at h
      split at h
      · cases h
      · cases h; exact ⟨_, ‹_›, rfl⟩
    | write a bs =>
      simp only [runWrite] at h
      split at h
      · cases h; exact ⟨‹_›, rfl⟩
      · cases h
    | withdraw a n =>
      simp only [runWithdraw] at h
      split at h
      · cases h; exact ⟨‹_›, rfl⟩
      · cases h
    | readSignals => cases h; rfl
    | readResp f =>
      simp only [runReadResp] at h
      split at h
      · cases h
      · cases h; exact ⟨_, ‹_›, rfl⟩
  · cases h

end Sys2Proof.Machine
end

