-- ==== Sys2Proof/Laws/PerInstr.lean ====
section
/-! SUPPORT. Per-operation statements, one lemma per constructor of Instr. -/

namespace Sys2Proof.Laws.EncodeLegal

/-- The encoder's control word has the operation's code, no reserved bit, and a code of 30_encoding.md R51. -/
def Statement (i : Instr) : Prop :=
  (encode i).latch.rsvd = 0#61 ∧ (encode i).latch.op = i.opCode ∧ i.opCode.toNat ≤ 4

theorem asBuffer (kptr klen mptr mlen : Nat) : Statement (.asBuffer kptr klen mptr mlen) :=
  ⟨encode_rsvd _, encode_op _, by simp [Instr.opCode]⟩

theorem asString (kptr klen mptr mlen : Nat) : Statement (.asString kptr klen mptr mlen) :=
  ⟨encode_rsvd _, encode_op _, by simp [Instr.opCode]⟩

theorem asHexString (kptr klen mptr mlen : Nat) : Statement (.asHexString kptr klen mptr mlen) :=
  ⟨encode_rsvd _, encode_op _, by simp [Instr.opCode]⟩

theorem asUInt32Low (kptr klen mptr mlen : Nat) : Statement (.asUInt32Low kptr klen mptr mlen) :=
  ⟨encode_rsvd _, encode_op _, by simp [Instr.opCode]⟩

theorem asUInt32High (kptr klen mptr mlen : Nat) : Statement (.asUInt32High kptr klen mptr mlen) :=
  ⟨encode_rsvd _, encode_op _, by simp [Instr.opCode]⟩

end Sys2Proof.Laws.EncodeLegal
end

