-- ==== Sys2Proof/Laws/Step.lean ====
section
/-! SUPPORT. Everything one step can do. -/

namespace Sys2Proof.Machine

theorem streamEnabled_iff {s : State} {k : Nat} :
    streamEnabled s k = true ↔ ∃ c, nextCommand s k = some c ∧ commandEnabled s c = true := by
  unfold streamEnabled
  cases nextCommand s k <;> simp

theorem nextCommand_lt {s : State} {k : Nat} {c : Command} (h : nextCommand s k = some c) :
    k < s.streams.length := by
  unfold nextCommand at h
  split at h
  · rename_i hs
    exact (List.getElem?_eq_some_iff.1 hs).1
  · cases h

/-- No command is left exactly where no sequence has a next one. -/
theorem commandsDone_iff {s : State} : commandsDone s = true ↔ ∀ k, nextCommand s k = none := by
  simp only [commandsDone, List.all_eq_true]
  constructor
  · intro h k
    unfold nextCommand
    split
    · rename_i hs
      simpa using h _ (List.mem_of_getElem? hs)
    · rfl
  · intro h cs hcs
    obtain ⟨k, hk⟩ := List.mem_iff_getElem?.1 hcs
    have := h k
    unfold nextCommand at this
    cases cs with
    | nil => rfl
    | cons c cs => rw [hk] at this; simp at this

theorem firstEnabled_some {s : State} {k : Nat} (h : firstEnabled s = some k) :
    streamEnabled s k = true :=
  List.find?_some h

theorem firstEnabled_none {s : State} :
    firstEnabled s = none ↔ ∀ k, streamEnabled s k = false := by
  unfold firstEnabled
  rw [List.find?_eq_none]
  constructor
  · intro h k
    by_contra hk
    obtain ⟨c, hc, -⟩ := streamEnabled_iff.1 (by simpa using hk)
    exact h k (List.mem_range.2 (nextCommand_lt hc)) (by simpa using hk)
  · intro h k _
    simp [h k]

/-- A sequence that moves has a command, and it is enabled. -/
theorem hostChoice_some {s : State} {k : Nat} (h : hostChoice s = some k) :
    ∃ c, nextCommand s k = some c ∧ commandEnabled s c = true := by
  apply streamEnabled_iff.1
  have hd : defaultChoice s = some k → streamEnabled s k = true := by
    intro h
    unfold defaultChoice at h
    split at h
    · cases h
    · exact firstEnabled_some h
  unfold hostChoice at h
  split at h
  · split at h
    · cases h; assumption
    · exact hd h
  · exact hd h
  · exact hd h

/-- The block moves only where it can perform or nobody else can move. -/
theorem hostChoice_none {s : State} (h : hostChoice s = none) :
    performEnabled s = true ∨ ∀ k, streamEnabled s k = false := by
  have hd : defaultChoice s = none → performEnabled s = true ∨ ∀ k, streamEnabled s k = false := by
    intro h
    unfold defaultChoice at h
    split at h
    · exact .inl ‹_›
    · exact .inr (firstEnabled_none.1 h)
  unfold hostChoice at h
  split at h
  · split at h
    · cases h
    · exact hd h
  · exact hd h
  · exact hd h

/-- With nobody able to move, the choice falls on the block. -/
theorem hostChoice_of_nobody {s : State} (hs : ∀ k, streamEnabled s k = false) :
    hostChoice s = none := by
  have hd : defaultChoice s = none := by
    unfold defaultChoice
    split
    · rfl
    · exact firstEnabled_none.2 hs
  unfold hostChoice
  split
  · simp [hs, hd]
  · exact hd
  · exact hd

/-- Where the machine needs no turn and PERFORM is enabled, the block moves. -/
theorem hostChoice_of_perform {s : State} (hs : s.sched = []) (hp : performEnabled s = true) :
    hostChoice s = none := by
  simp [hostChoice, hs, defaultChoice, hp]

/-- Everything a step with a next state can be: a host command, PERFORM, or the end of a run. -/
theorem step_next {s t : State} (h : step s = .next t) :
    (∃ k c, hostChoice s = some k ∧ nextCommand s k = some c ∧
        runCommand c (dropCommand (passTurn s) k) = .next t) ∨
      (hostChoice s = none ∧ s.phase = .working ∧ perform (passTurn s) = .next t) ∨
      (hostChoice s = none ∧ s.phase ≠ .working ∧ runEnded s = true ∧ t = passTurn s) := by
  unfold step stepOnce at h
  split at h
  · rename_i k hk
    obtain ⟨c, hc, -⟩ := hostChoice_some hk
    refine .inl ⟨k, c, hk, hc, ?_⟩
    have hc' : nextCommand (passTurn s) k = some c := hc
    simpa [hostStep, hc'] using h
  · refine .inr ?_
    unfold blockStep at h
    split at h
    · exact .inl ⟨‹_›, ‹_›, h⟩
    all_goals
      rename_i hph
      split at h
      · cases h
        rename_i hr
        exact .inr ⟨‹_›, by simp only [passTurn_phase] at hph; simp [hph], hr, rfl⟩
      · cases h

end Sys2Proof.Machine
end

