-- ==== Sys2Proof/Tests/Slice0.lean ====
section
/-! SUPPORT. Small tests, with expected results from spec/ (95_test_vectors.md where it gives them), and for
every statement with hypotheses a state that meets them. -/

namespace Sys2Proof.Tests

open Sys2Proof Sys2Proof.Machine Sys2Proof.Safety

/-! ### Well-formedness: each check refuses its ill-formed term (30_encoding.md R47) -/

theorem test_wf_largest_operands : (Instr.asString (2 ^ 64 - 1) (2 ^ 64 - 1) (2 ^ 64 - 1)
    (2 ^ 64 - 1)).wellFormed 64 64 = true := by decide
theorem test_wf_refuses_key_ptr : (Instr.asBuffer (2 ^ 64) 32 0 0).wellFormed 64 64 = false := by decide
theorem test_wf_refuses_key_len : (Instr.asBuffer 0 (2 ^ 64) 0 0).wellFormed 64 64 = false := by decide
theorem test_wf_refuses_msg_ptr : (Instr.asBuffer 0 32 (2 ^ 64) 0).wellFormed 64 64 = false := by decide
theorem test_wf_refuses_msg_len : (Instr.asBuffer 0 32 0 (2 ^ 64)).wellFormed 64 64 = false := by decide
theorem test_wf_follows_widths : (Instr.asBuffer 16 32 0 0).wellFormed 4 6 = false := by decide

/-! ### Decoding: the words of 30_encoding.md R48 and R51, 61 reserved bits then OP -/

theorem test_decode_asBuffer : decodeTableWord 64
    0b0000000000000000000000000000000000000000000000000000000000000_000 = some (.asBuffer 0 0 0 0) := by decide
theorem test_decode_asString : decodeTableWord 64
    0b0000000000000000000000000000000000000000000000000000000000000_001 = some (.asString 0 0 0 0) := by decide
theorem test_decode_asHexString : decodeTableWord 64
    0b0000000000000000000000000000000000000000000000000000000000000_010 = some (.asHexString 0 0 0 0) := by decide
theorem test_decode_asUInt32Low : decodeTableWord 64
    0b0000000000000000000000000000000000000000000000000000000000000_011 = some (.asUInt32Low 0 0 0 0) := by decide
theorem test_decode_asUInt32High : decodeTableWord 64
    0b0000000000000000000000000000000000000000000000000000000000000_100 = some (.asUInt32High 0 0 0 0) := by decide

/-- OP = 101 is unassigned (R52). -/
theorem test_decode_op5 : decodeTableWord 64
    0b0000000000000000000000000000000000000000000000000000000000000_101 = none := by decide
/-- W0[3] is reserved (R52; table D). -/
theorem test_decode_reserved_low : decodeTableWord 64
    0b0000000000000000000000000000000000000000000000000000000000001_000 = none := by decide
/-- W0[63] is reserved (R52; table D). -/
theorem test_decode_reserved_top : decodeTableWord 64
    0b1000000000000000000000000000000000000000000000000000000000000_000 = none := by decide

/-- The descriptor of program P2's second SUBMIT, word by word: W4 W3 W2 W1 W0. -/
theorem test_decode_p2 : decodeBits 64 64
    0x0000000000000003_0000000000002000_0000000000000020_0000000000001000_0000000000000001
    = .ok (.asString 0x1000 32 0x2000 3) := by decide
theorem test_encode_p2 : encodeBits 64 64 (.asUInt32High 0x1000 32 0x2000 3) =
    0x0000000000000003_0000000000002000_0000000000000020_0000000000001000_0000000000000004 := by decide

/-! ### Encoders (table C) -/

theorem test_encBuffer : encBuffer 0x0123456789abcdef#64 =
    [0xef, 0xcd, 0xab, 0x89, 0x67, 0x45, 0x23, 0x01] := by decide
/-- "12345678901234567890". -/
theorem test_encDecimal : encDecimal 0xab54a98ceb1f0ad2#64 =
    [0x31, 0x32, 0x33, 0x34, 0x35, 0x36, 0x37, 0x38, 0x39, 0x30,
     0x31, 0x32, 0x33, 0x34, 0x35, 0x36, 0x37, 0x38, 0x39, 0x30] := by decide
theorem test_encDecimal_zero : encDecimal 0#64 = [0x30] := by decide
/-- "efcdab8967452301", whose ASCII bytes V-L1-2 lists. -/
theorem test_encHex : encHex 0x0123456789abcdef#64 =
    [0x65, 0x66, 0x63, 0x64, 0x61, 0x62, 0x38, 0x39, 0x36, 0x37, 0x34, 0x35, 0x32, 0x33, 0x30, 0x31] := by
  decide
/-- "0001000000000000" (R74; the prose reading of 90_conflicts.md C1 would differ). -/
theorem test_encHex_256 : encHex 0x100#64 =
    [0x30, 0x30, 0x30, 0x31, 0x30, 0x30, 0x30, 0x30, 0x30, 0x30, 0x30, 0x30, 0x30, 0x30, 0x30, 0x30] := by
  decide
theorem test_encLow : encLow 0xdeadbeefcafebabe#64 = 3405691582#32 := by decide
theorem test_encHigh : encHigh 0xdeadbeefcafebabe#64 = 3735928559#32 := by decide

/-! ### Key lanes (table A) -/

/-- The key of table A's third row. -/
def countingKey : List Byte := (List.range 32).map (BitVec.ofNat 8)

theorem test_lanes_counting : lanesOf countingKey =
    #v[0x0706050403020100, 0x0f0e0d0c0b0a0908, 0x1716151413121110, 0x1f1e1d1c1b1a1918] := by decide
/-- The row that catches a reversed byte order. -/
theorem test_lanes_byte7 : lanesOf (List.replicate 7 0 ++ [0x80] ++ List.replicate 24 0) =
    #v[0x8000000000000000, 0, 0, 0] := by decide

/-! ### States of the worked instance -/

/-- ADDR_WIDTH = LEN_WIDTH = 64, CAPABILITY = true. -/
def params64 : Params := ⟨64, 64, true, .highwayHash⟩

/-- The memory of program P2. -/
def memP2 : Memory :=
  (List.range 32).map (fun i => (0x1000 + i, BitVec.ofNat 8 i)) ++
    [(0x2000, 0x61), (0x2001, 0x62), (0x2002, 0x63)]

/-- Right after RESET in program P2. -/
def powerOn : State := { State.reset with params := params64, mem := memP2 }

/-- An initialised, idle block. -/
def idle : State := { powerOn with gate := .ready }

/-- The host has submitted the descriptor `w0 kptr klen mptr mlen`. -/
def working (w0 : Word64) (kptr klen mptr mlen : Nat) : State :=
  latchRequest ⟨w0, kptr, klen, mptr, mlen⟩ idle

/-- A request in flight over the memory of program P2 moved up by one address. -/
def shifted : State :=
  { working 0#64 0x1001 32 0x2001 3 with mem := memP2.map (fun c => (c.1 + 1, c.2)) }

/-- A response waits. -/
def responding (r : Response) : State :=
  { working 0#64 0x1000 32 0x2000 3 with phase := .responding, resp := some r }

/-- A block whose INIT failed. -/
def failed : State := { powerOn with gate := .failed, params := { params64 with capability := false } }

/-- The result of a step or meaning has a next state. -/
def isNext : Result → Bool
  | .next _ => true
  | _ => false

/-- The next state's STATUS, where there is one. -/
def statusAfter (o : Result) : Option Status :=
  match o with
  | .next t => t.resp.map (·.status)
  | _ => none

/-- The fault, where there is one. -/
def faultOf : Result → Option Fault
  | .fault f => some f
  | _ => none

/-! ### Views (table B) -/

theorem test_view_bytes : readView powerOn 0x2001 2 = .ok [0x62, 0x63] := by decide
/-- The wrapping view of table B and program P5. -/
theorem test_view_wraps : readView powerOn 0xFFFFFFFFFFFFFFFF 2 = .error 0xFFFFFFFFFFFFFFFF := by decide
theorem test_view_empty : readView powerOn 0xFFFFFFFFFFFFFFFF 0 = .ok [] := by decide
/-- The very top of the space is an address like any other; one past it is not. -/
theorem test_view_at_top :
    readView { powerOn with mem := [(0xFFFFFFFFFFFFFFFF, 7)] } 0xFFFFFFFFFFFFFFFF 2 =
      .error 0x10000000000000000 := by decide

/-! ### The five operations (tables D, E) -/

/-- What an operation leaves, where the lanes of table A and the message "abc" meet MIX (program P2). -/
theorem test_asBuffer_result : ∃ t, exec (.asBuffer 0x1000 32 0x2000 3) (working 0#64 0x1000 32 0x2000 3)
    = .next t ∧ t.resp = some (okBytes 0#3 (encBuffer (Config.mix .highwayHash
      #v[0x0706050403020100, 0x0f0e0d0c0b0a0908, 0x1716151413121110, 0x1f1e1d1c1b1a1918]
      [0x61, 0x62, 0x63] 3))) := ⟨_, rfl, rfl⟩
theorem test_asString_kind : ∃ t r, exec (.asString 0x1000 32 0x2000 3)
    (working 1#64 0x1000 32 0x2000 3) = .next t ∧ t.resp = some r ∧ r.kind = some 1#3 ∧ r.u32 = none :=
  ⟨_, _, rfl, rfl, rfl, rfl⟩
theorem test_asHexString_len : ∃ t r, exec (.asHexString 0x1000 32 0x2000 0)
    (working 2#64 0x1000 32 0x2000 0) = .next t ∧ t.resp = some r ∧ r.len = some 16#5 :=
  ⟨_, _, rfl, rfl, rfl⟩
theorem test_asUInt32Low_data : ∃ t r, exec (.asUInt32Low 0x1000 32 0x2000 3)
    (working 3#64 0x1000 32 0x2000 3) = .next t ∧ t.resp = some r ∧ r.len = some 0#5 ∧ r.data = some [] :=
  ⟨_, _, rfl, rfl, rfl, rfl⟩
theorem test_asUInt32High_phase : ∃ t, exec (.asUInt32High 0x1000 32 0x2000 3)
    (working 4#64 0x1000 32 0x2000 3) = .next t ∧ t.phase = .responding ∧ t.lane = none ∧ t.h = none :=
  ⟨_, rfl, rfl, rfl, rfl⟩

/-- klen = 0, 31, 33 and 2^64 - 1 (R85), the key view not admitted (table E). -/
theorem test_key_lengths : [0, 31, 33, 2 ^ 64 - 1].map (fun n => statusAfter
    (exec (.asBuffer 0x5000 n 0x2000 3) (working 0#64 0x5000 n 0x2000 3))) =
      List.replicate 4 (some .invalidKeyLength) := by decide
/-- The same key_ptr with key_len = 32 is stuck (table E). -/
theorem test_key_not_admitted : faultOf (step (working 0#64 0x5000 32 0x2000 3)) =
    some (.stuckRead 0x5000) := by decide
/-- Program P3: .req 0x5 and .req 0x8. -/
theorem test_illegal_words : [0x5#64, 0x8#64].map (fun w => statusAfter
    (step (working w 0x1000 33 0x2000 5))) = List.replicate 2 (some .illegalOperation) := by decide
/-- Program P5: the message view runs off the top of memory. -/
theorem test_p5_stuck : faultOf (step { working 1#64 0x1000 32 0xfffffffffffffffe 4 with
    streams := [[.take]] }) = some (.stuckRead 0xfffffffffffffffe) := by decide
/-- A table row placed after reset is performed by the first step: key_len is 0. -/
theorem test_placed_word : statusAfter (step (State.reset.withFetchWord 64 3)) =
    some .invalidKeyLength := by decide

/-! ### Commands (table F) -/

/-- The gate after a step. -/
def gateAfter (o : Result) : Option Gate :=
  match o with
  | .next t => some t.gate
  | _ => none

theorem test_init_ready : gateAfter (step { powerOn with streams := [[.init]] }) = some .ready := by decide
theorem test_init_failed : gateAfter (step { failed with gate := .uninit, streams := [[.init]] }) =
    some .failed := by decide
/-- A SUBMIT held while UNINIT lets another thread's INIT pass (R119). -/
theorem test_submit_waits_for_init : gateAfter (step { powerOn with
    streams := [[.submit ⟨0, 0x1000, 32, 0x2000, 3⟩], [.init]] }) = some .ready := by decide
/-- Program P4. -/
theorem test_p4_stuck : faultOf (step { failed with
    streams := [[.submit ⟨0, 0x1000, 32, 0x2000, 0⟩, .take]] }) = some .stuckGateFailed := by decide
/-- A host that never TAKEs is stuck (R115). -/
theorem test_never_taken_stuck : faultOf (step { responding (errorOnly .illegalOperation) with
    streams := [[.submit ⟨0, 0x1000, 32, 0x2000, 0⟩]] }) = some .stuckHeld := by decide
/-- A host write to the message view of the operation in flight waits (R40). -/
theorem test_write_in_flight_waits : commandEnabled (working 0#64 0x1000 32 0x2000 3)
    (.write 0x2002 [0]) = false := by decide
/-- A host write beside the views does not. -/
theorem test_write_beside_views : commandEnabled (working 0#64 0x1000 32 0x2000 3)
    (.write 0x2003 [0]) = true := by decide
/-- A key view that is never read, as key_len = 31, may be withdrawn in flight (R118). -/
theorem test_withdraw_unread_key : commandEnabled (working 0#64 0x1000 31 0x2000 3)
    (.withdraw 0x1000 31) = true := by decide
/-- A view that is read may not: not its last byte (R118). -/
theorem test_withdraw_read_key : commandEnabled (working 0#64 0x1000 32 0x2000 3)
    (.withdraw 0x101f 1) = false ∧ commandEnabled (working 0#64 0x1000 32 0x2000 3)
    (.withdraw 0x1020 1) = true := by decide
/-- A read of DATA in an error response faults (R117). -/
theorem test_read_unset_faults : faultOf (step { responding (errorOnly .invalidKeyLength) with
    streams := [[.readResp .data]] }) = some (.readBottom (.respField .data)) := by decide
/-- A RESET in flight (table F's last row). -/
theorem test_reset_in_flight : gateAfter (step { working 0#64 0x1000 32 0x2000 3 with
    streams := [[.reset]], sched := [.stream 0] }) = some .uninit := by decide
/-- The SUBMIT that a RESET discarded is not followed by its TAKE, so the run has not ended (R122). -/
theorem test_discarded_submit_has_no_take :
    runEnded (resetBlock (working 0#64 0x1000 32 0x2000 3)) = false ∧
    faultOf (step (resetBlock (working 0#64 0x1000 32 0x2000 3))) = some .stuckDiscarded ∧
    runEnded (resetBlock idle) = true := by decide

/-! ### Every statement's hypotheses are met -/

theorem witness_RequestBitsRoundTrip :
    (Instr.asUInt32High 0 0 (2 ^ 64 - 1) (2 ^ 64 - 1)).wellFormed 64 64 = true ∧
      (Instr.asBuffer 1 63 0 0).wellFormed 1 6 = true := by decide
theorem witness_DecimalIsCanonical : (0#64 : Word64) = 0#64 ∧ (1#64 : Word64) ≠ 0#64 := by decide
theorem witness_LanesAreLittleEndian : countingKey.length = 32 := by decide
theorem witness_WrappingViewIsStuck :
    0 < 1 ∧ 2 ^ powerOn.params.addrWidth < 0x10000000000000000 + 1 := by decide
theorem witness_ReadReturnsListedByte : Memory.wf powerOn.params.addrWidth powerOn.mem := by decide
/-- For AsBufferAnswers, AsStringAnswers, AsHexStringAnswers, AsUInt32LowAnswers and AsUInt32HighAnswers, whose
hypotheses are the same: klen = 31 and 33 meet the error clause, klen = 32 the other, with both views
readable. -/
theorem witness_EntryAnswers :
    (working 0#64 0x1000 32 0x2000 3).phase = .working ∧ 31 ≠ 32 ∧ 33 ≠ 32 ∧
      readView (working 0#64 0x1000 32 0x2000 3) 0x1000 32 = .ok countingKey ∧
      readView (working 0#64 0x1000 32 0x2000 3) 0x2000 3 = .ok [0x61, 0x62, 0x63] := by decide
theorem witness_WrongKeyLengthIsReported : (working 0#64 0 31 0 0).phase = .working ∧
    (Instr.asBuffer 0 31 0 0).keyLen ≠ 32 ∧ (Instr.asUInt32High 0 33 0 0).keyLen ≠ 32 := by decide
theorem witness_IllegalWordIsReported : (working 5#64 0 32 0 0).phase = .working ∧
    (working 5#64 0 32 0 0).req = some (Descriptor.latch ⟨5#64, 0, 32, 0, 0⟩) ∧ ¬ legalWord 5#64 ∧
    ¬ legalWord 8#64 := by
  refine ⟨rfl, rfl, ?_, ?_⟩ <;> · unfold legalWord; decide
/-- The gate, legality, key-length and admission clauses, in that order. -/
theorem witness_ChecksComeInOrder : powerOn.gate ≠ .ready ∧
    ((working 5#64 0 31 0 0).phase = .working ∧
      (working 5#64 0 31 0 0).req = some (Descriptor.latch ⟨5#64, 0, 31, 0, 0⟩)) ∧
    (∃ e, decode (Descriptor.latch ⟨5#64, 0, 31, 0, 0⟩) = .error e) ∧
    (∃ i, decode (Descriptor.latch ⟨0#64, 0, 31, 0, 0⟩) = .ok i) ∧
    (∃ i, decode (Descriptor.latch ⟨0#64, 0x5000, 32, 0, 0⟩) = .ok i) ∧
    memRead (working 0#64 0x5000 32 0 0) (0x5000 + 0) = none ∧
    memRead (working 0#64 0x1000 32 0x2000 4) (0x2000 + 3) = none :=
  ⟨by decide, by decide, ⟨_, rfl⟩, ⟨_, rfl⟩, ⟨_, rfl⟩, by decide, by decide⟩
theorem witness_UnadmittedByteIsStuck : (working 0#64 0x1001 32 0x2000 4).phase = .working ∧
    (Instr.asString 0x1001 32 0x2000 4).keyLen = 32 ∧
    (31 < 32 ∧ memRead (working 0#64 0x1001 32 0x2000 4) (0x1001 + 31) = none) ∧
    (3 < 4 ∧ memRead (working 0#64 0x1001 32 0x2000 4) (0x2000 + 3) = none) := by decide
theorem witness_EmptyMessageIgnoresPointer : (working 2#64 0x1000 32 (2 ^ 64 - 1) 0).phase = .working ∧
    (Instr.asHexString 0x1000 32 (2 ^ 64 - 1) 0).keyLen = 32 ∧
    (Instr.asHexString 0x1000 32 (2 ^ 64 - 1) 0).msgLen = 0 ∧
    readView (working 2#64 0x1000 32 (2 ^ 64 - 1) 0) 0x1000 32 = .ok countingKey := by decide
theorem witness_EntryOperationsFrame :
    (∃ t, exec (.asUInt32Low 0x1000 32 0x2000 3) (working 3#64 0x1000 32 0x2000 3) = .next t) ∧
    (∃ t, exec (.asUInt32Low 0x1000 31 0x2000 3) (working 3#64 0x1000 31 0x2000 3) = .next t) ∧
    (working 3#64 0x1000 32 0x2000 3).lane = none ∧ (working 3#64 0x1000 32 0x2000 3).h = none :=
  ⟨⟨_, rfl⟩, ⟨_, rfl⟩, rfl, rfl⟩
theorem witness_ResponsesAreWellFormed :
    (∃ t, exec (.asUInt32Low 0x1000 32 0x2000 3) (working 3#64 0x1000 32 0x2000 3) = .next t) ∧
    (∃ t, perform (working 3#64 0x1000 32 0x2000 3) = .next t) ∧
    (∃ t, perform (working 3#64 0x1000 31 0x2000 3) = .next t) ∧
    (∃ t, perform (working 5#64 0x1000 32 0x2000 3) = .next t) :=
  ⟨⟨_, rfl⟩, ⟨_, rfl⟩, ⟨_, rfl⟩, ⟨_, rfl⟩⟩
/-- Two states whose key and message lie at different addresses, and two different wrong key lengths. -/
theorem witness_ResultDependsOnlyOnViews :
    (Instr.asBuffer 0x1000 32 0x2000 3).opCode = (Instr.asBuffer 0x1001 32 0x2001 3).opCode ∧
    (Instr.asBuffer 0x1000 32 0x2000 3).keyLen = 32 ∧ (Instr.asBuffer 0x1001 32 0x2001 3).keyLen = 32 ∧
    (Instr.asBuffer 0x1000 31 0x2000 3).keyLen ≠ 32 ∧ (Instr.asBuffer 0x1001 33 0x2001 4).keyLen ≠ 32 ∧
    (Instr.asBuffer 0x1000 32 0x2000 3).msgLen = (Instr.asBuffer 0x1001 32 0x2001 3).msgLen ∧
    (working 0#64 0x1000 32 0x2000 3).phase = .working ∧ shifted.phase = .working ∧
    (working 0#64 0x1000 32 0x2000 3).params.hashAlgorithm = shifted.params.hashAlgorithm ∧
    readView (working 0#64 0x1000 32 0x2000 3) 0x1000 32 = .ok countingKey ∧
    readView shifted 0x1001 32 = .ok countingKey ∧
    readView (working 0#64 0x1000 32 0x2000 3) 0x2000 3 = .ok [0x61, 0x62, 0x63] ∧
    readView shifted 0x2001 3 = .ok [0x61, 0x62, 0x63] := by decide
theorem witness_StepRunsDecodedRequest : (working 1#64 0x1000 32 0x2000 3).phase = .working ∧
    (working 1#64 0x1000 32 0x2000 3).req = some (Descriptor.latch ⟨1#64, 0x1000, 32, 0x2000, 3⟩) ∧
    decode (Descriptor.latch ⟨1#64, 0x1000, 32, 0x2000, 3⟩) = .ok (.asString 0x1000 32 0x2000 3) ∧
    hostChoice (working 1#64 0x1000 32 0x2000 3) = none := by decide
theorem witness_PlacedWordRuns : 0 < 5 ∧ 4 < 5 := by decide
theorem witness_StepRunsHostCommand : hostChoice { idle with streams := [[], [.init]] } = some 1 ∧
    nextCommand { idle with streams := [[], [.init]] } 1 = some .init := by decide
/-- A RESET overtakes an enabled PERFORM on its turn; the block's turn performs. -/
theorem witness_TurnsReachEveryAgent :
    nextCommand { working 0#64 0 31 0 0 with streams := [[.reset]], sched := [.stream 0] } 0 = some .reset ∧
    commandEnabled { working 0#64 0 31 0 0 with streams := [[.reset]], sched := [.stream 0] } .reset = true ∧
    performEnabled { working 0#64 0 31 0 0 with streams := [[.reset]], sched := [.block] } = true := by decide
theorem witness_AdmittedRequestCompletes : (working 4#64 0x1000 32 0x2000 3).phase = .working ∧
    (working 4#64 0x1000 32 0x2000 3).req = some (Descriptor.latch ⟨4#64, 0x1000, 32, 0x2000, 3⟩) ∧
    (∃ i, decode (Descriptor.latch ⟨4#64, 0x1000, 32, 0x2000, 3⟩) = .ok i) ∧
    (∀ j, j < 32 → memRead (working 4#64 0x1000 32 0x2000 3) (0x1000 + j) ≠ none) ∧
    (∀ j, j < 3 → memRead (working 4#64 0x1000 32 0x2000 3) (0x2000 + j) ≠ none) ∧
    (working 4#64 0x1000 32 0x2000 3).sched = [] := ⟨rfl, rfl, ⟨_, rfl⟩, by decide, by decide, rfl⟩
theorem witness_SubmitLatchesDescriptor : idle.gate = .ready ∧ idle.phase = .idle ∧
    Descriptor.fits idle.params.addrWidth idle.params.lenWidth ⟨0, 0, 2 ^ 64 - 1, 2 ^ 64 - 1, 0⟩ = true := by
  decide
theorem witness_TakeDeliversAndClears : (responding (errorOnly .illegalOperation)).phase = .responding ∧
    (responding (errorOnly .illegalOperation)).resp = some (errorOnly .illegalOperation) ∧
    idle.phase ≠ .responding := by decide
theorem witness_InitDecidesGateOnce : powerOn.gate = .uninit ∧ powerOn.params.capability = true ∧
    { failed with gate := .uninit }.gate = .uninit ∧ { failed with gate := .uninit }.params.capability = false ∧
    idle.gate = .ready ∧ failed.gate = .failed := by decide
theorem witness_PowerOnEqualsReset : ∃ t, runCommand .reset idle = .next t := ⟨_, rfl⟩
theorem witness_SignalsShowState : powerOn.gate = .uninit ∧ idle.gate = .ready ∧ failed.gate = .failed := by
  decide
/-- A phase outside RESPONDING; a response of each status; a 32-bit result of each kind and a Buffer. -/
theorem witness_ReadOfUnsetFieldFaults : idle.phase ≠ .responding ∧
    (responding (errorOnly .invalidKeyLength)).phase = .responding ∧
    (responding (errorOnly .invalidKeyLength)).resp = some (errorOnly .invalidKeyLength) ∧
    responseWf (errorOnly .invalidKeyLength) ∧ responseWf (errorOnly .illegalOperation) ∧
    responseWf (okU32 3#3 7#32) ∧ responseWf (okU32 4#3 7#32) ∧
    responseWf (okBytes 0#3 [0, 0, 0, 0, 0, 0, 0, 0]) := by
  refine ⟨by decide, by decide, by decide, ?_, ?_, ?_, ?_, ?_⟩ <;>
    simp [responseWf, errorOnly, okU32, okBytes]
/-- The two bytes at the top of the space. -/
theorem witness_HostWriteAdmitsBytes : touchesFlight idle (2 ^ 64 - 2) 2 = false ∧
    (2 ^ 64 - 2) + 2 ≤ 2 ^ idle.params.addrWidth := by decide
/-- The same two bytes, and in flight a message byte that the wrong key length leaves unread. -/
theorem witness_WithdrawalEndsAdmission : touchesReads idle (2 ^ 64 - 2) 2 = false ∧
    (2 ^ 64 - 2) + 2 ≤ 2 ^ idle.params.addrWidth ∧
    touchesReads (working 0#64 0x1000 31 0x2000 3) 0x2002 1 = false ∧
    0x2002 + 1 ≤ 2 ^ (working 0#64 0x1000 31 0x2000 3).params.addrWidth := by decide
theorem witness_MalformedCommandIsRefused :
    Descriptor.fits idle.params.addrWidth idle.params.lenWidth ⟨0, 2 ^ 64, 32, 0, 0⟩ = false ∧
    touchesFlight idle (2 ^ 64 - 1) 2 = false ∧ touchesReads idle (2 ^ 64 - 1) 2 = false ∧
    2 ^ idle.params.addrWidth < (2 ^ 64 - 1) + 2 := by decide
theorem witness_HeldCommandWaits :
    nextCommand { powerOn with streams := [[.take], [.init]] } 0 = some .take ∧
    commandEnabled { powerOn with streams := [[.take], [.init]] } .take = false ∧
    isNext (step { powerOn with streams := [[.take], [.init]] }) = true := by decide
theorem witness_HoldsAndTheirLifting : powerOn.gate = .uninit ∧ powerOn.phase = .idle ∧
    powerOn.params.capability = true ∧ (working 0#64 0 31 0 0).phase ≠ .idle ∧
    (∃ t, perform (working 0#64 0 31 0 0) = .next t) ∧
    (responding (errorOnly .illegalOperation)).gate = .ready ∧
    (∃ t, runCommand .take (responding (errorOnly .illegalOperation)) = .next t) :=
  ⟨rfl, rfl, rfl, by decide, ⟨_, rfl⟩, rfl, ⟨_, rfl⟩⟩

theorem invariant_idle : Inv idle :=
  ⟨by decide, by decide, rfl, rfl, fun _ => ⟨rfl, rfl⟩, fun h => absurd rfl h,
    fun h => absurd h (by decide), fun h => absurd h (by decide)⟩
theorem invariant_working : Inv (working 0#64 0x1000 32 0x2000 3) :=
  ⟨by decide, by decide, rfl, rfl, fun h => absurd h (by decide),
    fun _ => ⟨rfl, _, rfl, by decide, by decide, by decide, by decide⟩, fun _ => rfl,
    fun h => absurd h (by decide)⟩
/-- An idle block that takes a SUBMIT and a working one that performs. -/
theorem witness_StepKeepsInvariant :
    (Inv (working 0#64 0x1000 32 0x2000 3) ∧
      isNext (step (working 0#64 0x1000 32 0x2000 3)) = true) ∧
    Inv idle ∧ isNext (step idle) = true :=
  ⟨⟨invariant_working, by decide⟩, invariant_idle, by decide⟩
theorem witness_StepKeepsMemoryCanonical : Memory.wf idle.params.addrWidth idle.mem ∧
    isNext (step { idle with streams := [[.write 0x1fff [1, 2, 3]]] }) = true := by decide
/-- Also for StepKeepsParameters: a step that changes GATE. -/
theorem witness_GateChangesOnlyByInitOrReset : ∃ t, step { powerOn with streams := [[.init]] } = .next t ∧
    t.gate ≠ powerOn.gate := ⟨_, rfl, by decide⟩
theorem witness_PhaseFollowsProtocol :
    (∃ t, step { idle with streams := [[.submit ⟨0, 0, 32, 0, 0⟩]] } = .next t ∧ t.phase ≠ idle.phase) ∧
    (∃ t, step (working 0#64 0 31 0 0) = .next t ∧ t.phase ≠ .working) ∧
    (∃ t, step { responding (errorOnly .illegalOperation) with streams := [[.take]] } = .next t ∧
      t.phase ≠ .responding) ∧
    (∃ t, step { responding (errorOnly .illegalOperation) with streams := [[.reset]] } = .next t ∧
      t.phase ≠ .responding) :=
  ⟨⟨_, rfl, by decide⟩, ⟨_, rfl, by decide⟩, ⟨_, rfl, by decide⟩, ⟨_, rfl, by decide⟩⟩
theorem witness_RequestWrittenOnlyBySubmit :
    (∃ t, step { idle with streams := [[.submit ⟨0, 0, 32, 0, 0⟩]] } = .next t ∧ t.req ≠ idle.req) ∧
    (∃ t, step { responding (errorOnly .illegalOperation) with streams := [[.take]] } = .next t ∧
      t.req ≠ (responding (errorOnly .illegalOperation)).req) := ⟨⟨_, rfl, by decide⟩, ⟨_, rfl, by decide⟩⟩
theorem witness_FailedGateAcceptsNoRequest :
    (failed.gate = .failed ∧ failed.phase = .idle ∧
      isNext (step { failed with streams := [[.init]] }) = true) ∧
    submitWaits { failed with streams := [[], [.submit ⟨0, 0, 32, 0, 0⟩]] } = true ∧
    (∀ k c, nextCommand { failed with streams := [[], [.submit ⟨0, 0, 32, 0, 0⟩]] } k = some c →
      ∃ d, c = .submit d) := by
  refine ⟨by decide, by decide, fun k c h => ?_⟩
  match k with
  | 0 => simp [nextCommand] at h
  | 1 => exact ⟨_, by simpa [nextCommand] using h.symm⟩
  | k + 2 => simp [nextCommand] at h
theorem witness_BlockNeverWritesMemory :
    ∃ t, step { idle with streams := [[.write 0x2003 [0x64]]] } = .next t ∧ t.mem ≠ idle.mem :=
  ⟨_, rfl, by decide⟩
/-- A read byte of each view; a key byte that the wrong length leaves unread, and its withdrawal. -/
theorem witness_ViewsAreStableInFlight : (working 0#64 0x1000 32 0x2000 3).phase ≠ .idle ∧
    (working 0#64 0x1000 32 0x2000 3).req = some (Descriptor.latch ⟨0#64, 0x1000, 32, 0x2000, 3⟩) ∧
    isNext (step { working 0#64 0x1000 32 0x2000 3 with
      streams := [[.write 0x2003 [0]]], sched := [.stream 0] }) = true ∧
    inReadViews (Descriptor.latch ⟨0#64, 0x1000, 32, 0x2000, 3⟩) 0x101f ∧
    inReadViews (Descriptor.latch ⟨0#64, 0x1000, 32, 0x2000, 3⟩) 0x2002 ∧
    inViews (Descriptor.latch ⟨0#64, 0x1000, 31, 0x2000, 3⟩) 0x101e ∧
    isNext (step { working 0#64 0x1000 31 0x2000 3 with
      streams := [[.withdraw 0x101e 1]], sched := [.stream 0] }) = true :=
  ⟨by decide, by decide, by decide, ⟨by decide, .inl ⟨by decide, by decide⟩⟩,
    ⟨by decide, .inr ⟨by decide, by decide⟩⟩, .inl ⟨by decide, by decide⟩, by decide⟩
/-- A request in flight with read views, one with a wrong key length, an illegal one, and one with an empty
message and bytes right before and right behind its key view. -/
theorem witness_UnreadViewsMayBeWithdrawn : (working 0#64 0x1000 32 0x2000 3).phase ≠ .idle ∧
    (working 0#64 0x1000 32 0x2000 3).req = some (Descriptor.latch ⟨0#64, 0x1000, 32, 0x2000, 3⟩) ∧
    (0x101f ≤ 0x101f ∧ 0x101f < 0x101f + 1 ∧
      inReadViews (Descriptor.latch ⟨0#64, 0x1000, 32, 0x2000, 3⟩) 0x101f) ∧
    (Descriptor.latch ⟨0#64, 0x1000, 31, 0x2000, 3⟩).keyLen ≠ 32 ∧
    (∀ i, decode (Descriptor.latch ⟨5#64, 0x1000, 32, 0x2000, 3⟩) ≠ .ok i) ∧
    (Descriptor.latch ⟨0#64, 0x1000, 32, 0x2000, 0⟩).msgLen = 0 ∧
    0xfff + 1 ≤ (Descriptor.latch ⟨0#64, 0x1000, 32, 0x2000, 0⟩).keyPtr ∧
    (Descriptor.latch ⟨0#64, 0x1000, 32, 0x2000, 0⟩).keyPtr +
      (Descriptor.latch ⟨0#64, 0x1000, 32, 0x2000, 0⟩).keyLen ≤ 0x1020 :=
  ⟨by decide, by decide, ⟨by decide, by decide, by decide, .inl ⟨by decide, by decide⟩⟩, by decide,
    (by intro i h; cases h), by decide, by decide, by decide⟩
theorem witness_ResetDiscardsOperation : (working 0#64 0x1000 32 0x2000 3).phase ≠ .idle ∧
    hostChoice { working 0#64 0x1000 32 0x2000 3 with streams := [[.reset]], sched := [.stream 0] } = some 0 ∧
    nextCommand { working 0#64 0x1000 32 0x2000 3 with streams := [[.reset]], sched := [.stream 0] } 0 =
      some .reset ∧
    isNext (step { working 0#64 0x1000 32 0x2000 3 with streams := [[.reset]], sched := [.stream 0] }) = true :=
  ⟨by decide, by decide, by decide, by decide⟩
theorem witness_ResponsesComeOnlyByTake :
    isNext (step { responding (errorOnly .illegalOperation) with streams := [[.take]] }) = true ∧
    isNext (step { idle with streams := [[.init]] }) = true := by decide
theorem witness_EndOfRunIsNeitherStuckNorFaulted : runEnded idle = true ∧ runEnded { idle with
    streams := [[], []] } = true ∧
    faultOf (step { idle with streams := [[.take]] }) = some .stuckHeld := by decide
/-- A RESET in flight and in an idle block; steps after and of a discarding RESET; nothing left to do. -/
theorem witness_DiscardedSubmitNeverEndsRun :
    (∃ t, runCommand .reset (working 0#64 0x1000 32 0x2000 3) = .next t) ∧
    (working 0#64 0x1000 32 0x2000 3).phase ≠ .idle ∧
    (∃ t, runCommand .reset idle = .next t) ∧ idle.phase = .idle ∧
    isNext (step { idle with discarded := 1, streams := [[.init]] }) = true ∧
    (∃ t, step { working 0#64 0x1000 32 0x2000 3 with streams := [[.reset]], sched := [.stream 0] } = .next t ∧
      t.discarded ≠ 0) ∧
    { idle with discarded := 1 }.phase = .idle ∧ { idle with discarded := 1 }.discarded ≠ 0 ∧
    (∀ k, nextCommand { idle with discarded := 1 } k = none) :=
  ⟨⟨_, rfl⟩, by decide, ⟨_, rfl⟩, by decide, by decide, ⟨_, rfl, by decide⟩, by decide, by decide,
    fun _ => rfl⟩

end Sys2Proof.Tests
end

section
/-! PROOFS of the family 10_state.md: who moves in a step, what each host command and PERFORM change of the
block, and the invariant. -/

namespace Sys2Proof.Machine

open Sys2Proof.Safety

/-! ### Who moves -/

/-- The step of a chosen sequence is its next command's effect, off the sequence and with the turn passed. -/
theorem step_of_hostChoice_some {s : State} {k : Nat} {c : Command} (hk : hostChoice s = some k)
    (hc : nextCommand s k = some c) : step s = runCommand c (dropCommand (passTurn s) k) := by
  have hc' : nextCommand (passTurn s) k = some c := hc
  simp only [step, stepOnce, hk, hostStep, hc']

theorem hostChoice_of_stream_turn {s : State} {k : Nat} {ts : List Turn} (hs : s.sched = .stream k :: ts)
    (hk : streamEnabled s k = true) : hostChoice s = some k := by
  simp [hostChoice, hs, hk]

theorem hostChoice_of_block_turn {s : State} {ts : List Turn} (hs : s.sched = .block :: ts)
    (hp : performEnabled s = true) : hostChoice s = none := by
  simp [hostChoice, hs, defaultChoice, hp]

/-- PERFORM is enabled only while PHASE = WORKING (42_entry_operations.md R82). -/
theorem phase_of_performEnabled {s : State} (h : performEnabled s = true) : s.phase = .working := by
  by_contra hp
  simp [performEnabled, perform, hp, Fault.isStuck] at h

theorem step_of_hostChoice_none {s : State} (hn : hostChoice s = none) (hp : s.phase = .working) :
    step s = perform (passTurn s) := by
  simp only [step, stepOnce, hn, blockStep, passTurn_phase, hp]

/-- Settles O28: the definition of `step` at a chosen sequence. -/
theorem stepRunsHostCommand : Obligations.StepRunsHostCommand :=
  fun _ _ _ hk hc => step_of_hostChoice_some hk hc

/-- Settles O30: a turn for an enabled agent decides `hostChoice`, and the step is that agent's. -/
theorem turnsReachEveryAgent : Obligations.TurnsReachEveryAgent := by
  intro s ts
  refine ⟨fun k c hs hc he => ?_, fun hs hp => ?_⟩
  · have hk := hostChoice_of_stream_turn hs (streamEnabled_iff.2 ⟨c, hc, he⟩)
    rw [step_of_hostChoice_some hk hc, dropCommand, passTurn, hs, List.tail_cons]
  · rw [step_of_hostChoice_none (hostChoice_of_block_turn hs hp) (phase_of_performEnabled hp), passTurn,
      hs, List.tail_cons]

/-! ### The signals -/

theorem busy_iff {s : State} : busy s = true ↔ s.phase ≠ .idle := by simp [busy]

theorem respValid_iff {s : State} : respValid s = true ↔ s.phase = .responding := by simp [respValid]

/-- Settles O37: `gate_status` is the code of GATE, and the other two are tests of PHASE. -/
theorem signalsShowState : Obligations.SignalsShowState := by
  intro s
  refine ⟨fun hg => ?_, fun hg => ?_, fun hg => ?_, busy_iff, respValid_iff, rfl⟩ <;>
    rw [gateStatus, hg, Gate.code]

/-! ### What a host command changes -/

theorem blockOf_eq {s t : State} (h : blockOf t = blockOf s) :
    t.gate = s.gate ∧ t.phase = s.phase ∧ t.req = s.req ∧ t.lane = s.lane ∧ t.h = s.h ∧
      t.resp = s.resp := by
  simpa only [blockOf, Prod.mk.injEq] using h

/-- What a host command with a next state does to the block: RESET, INIT, SUBMIT and TAKE have their effect,
and any other leaves the block as it is, its parameters too, and memory in canonical form. -/
theorem runCommand_block {c : Command} {s t : State} (h : runCommand c s = .next t) :
    c = .reset ∧ t = resetBlock s ∨
      c = .init ∧ t = initGate s ∨
      (∃ d, c = .submit d ∧ s.gate = .ready ∧ s.phase = .idle ∧
        d.fits s.params.addrWidth s.params.lenWidth = true ∧ t = latchRequest d s) ∨
      (∃ r, c = .take ∧ s.phase = .responding ∧ t = takeResponse r s) ∨
      (blockOf t = blockOf s ∧ t.params = s.params ∧
        (Memory.wf s.params.addrWidth s.mem → Memory.wf s.params.addrWidth t.mem)) := by
  obtain ⟨he, ht⟩ := runCommand_next h
  cases c with
  | reset => exact .inl ⟨rfl, ht⟩
  | init => exact .inr (.inl ⟨rfl, ht⟩)
  | submit d =>
    obtain ⟨hg, hp⟩ := commandEnabled_submit.1 he
    obtain ⟨hd, ht⟩ := ht
    exact .inr (.inr (.inl ⟨d, rfl, hg, hp, hd, ht⟩))
  | take =>
    obtain ⟨r, -, ht⟩ := ht
    exact .inr (.inr (.inr (.inl ⟨r, rfl, commandEnabled_take.1 he, ht⟩)))
  | write a bs =>
    obtain ⟨ha, rfl⟩ := ht
    exact .inr (.inr (.inr (.inr ⟨rfl, rfl, fun hm => wf_write hm ha⟩)))
  | withdraw a n =>
    obtain ⟨-, rfl⟩ := ht
    exact .inr (.inr (.inr (.inr ⟨rfl, rfl, wf_withdraw a n⟩)))
  | readSignals => exact .inr (.inr (.inr (.inr (by rw [ht]; exact ⟨rfl, rfl, id⟩))))
  | readResp f =>
    obtain ⟨_, -, rfl⟩ := ht
    exact .inr (.inr (.inr (.inr ⟨rfl, rfl, id⟩)))

/-- No host command changes a parameter (10_state.md R14). -/
theorem runCommand_params {c : Command} {s t : State} (h : runCommand c s = .next t) :
    t.params = s.params := by
  obtain ⟨-, rfl⟩ | ⟨-, rfl⟩ | ⟨d, -, -, -, -, rfl⟩ | ⟨r, -, -, rfl⟩ | ⟨-, hparams, -⟩ := runCommand_block h
  · rfl
  · exact initGate_params s
  · rfl
  · rfl
  · exact hparams

/-- INIT of a block whose GATE is decided leaves it as it is (42_entry_operations.md R84). -/
theorem initGate_of_decided {s : State} (hg : s.gate ≠ .uninit) : initGate s = s := by
  cases h : s.gate <;> simp_all [initGate]

theorem runCommand_gate {c : Command} {s t : State} (h : runCommand c s = .next t)
    (hne : t.gate ≠ s.gate) : c = .reset ∧ t.gate = .uninit ∨ c = .init ∧ s.gate = .uninit := by
  obtain ⟨rfl, rfl⟩ | ⟨rfl, rfl⟩ | ⟨d, -, -, -, -, rfl⟩ | ⟨r, -, -, rfl⟩ | ⟨hb, -⟩ := runCommand_block h
  · exact .inl ⟨rfl, rfl⟩
  · refine .inr ⟨rfl, ?_⟩
    by_contra hg
    exact hne (by rw [initGate_of_decided hg])
  · exact absurd rfl hne
  · exact absurd rfl hne
  · obtain ⟨hgate, -⟩ := blockOf_eq hb
    exact absurd hgate hne

theorem runCommand_phase {c : Command} {s t : State} (h : runCommand c s = .next t)
    (hne : t.phase ≠ s.phase) :
    (∃ d, c = .submit d ∧ s.phase = .idle ∧ t.phase = .working) ∨
      (c = .take ∧ s.phase = .responding ∧ t.phase = .idle) ∨ (c = .reset ∧ t.phase = .idle) := by
  obtain ⟨rfl, rfl⟩ | ⟨-, rfl⟩ | ⟨d, rfl, -, hp, -, rfl⟩ | ⟨r, rfl, hp, rfl⟩ | ⟨hb, -⟩ := runCommand_block h
  · exact .inr (.inr ⟨rfl, rfl⟩)
  · exact absurd (initGate_phase s) hne
  · exact .inl ⟨d, rfl, hp, rfl⟩
  · exact .inr (.inl ⟨rfl, hp, rfl⟩)
  · obtain ⟨-, hphase, -⟩ := blockOf_eq hb
    exact absurd hphase hne

theorem runCommand_req {c : Command} {s t : State} (h : runCommand c s = .next t)
    (hne : t.req ≠ s.req) :
    (∃ d, c = .submit d ∧ s.gate = .ready ∧ s.phase = .idle ∧ t.req = some d.latch) ∨
      (c = .take ∨ c = .reset) ∧ t.req = none := by
  obtain ⟨rfl, rfl⟩ | ⟨-, rfl⟩ | ⟨d, rfl, hg, hp, -, rfl⟩ | ⟨r, rfl, -, rfl⟩ | ⟨hb, -⟩ := runCommand_block h
  · exact .inr ⟨.inr rfl, rfl⟩
  · exact absurd (initGate_req s) hne
  · exact .inl ⟨d, rfl, hg, hp, rfl⟩
  · exact .inr ⟨.inl rfl, rfl⟩
  · obtain ⟨-, -, hreq, -⟩ := blockOf_eq hb
    exact absurd hreq hne

/-! ### What a step changes -/

/-- A step is a host command's effect, or the block's own, which leaves GATE, REQ, memory and parameters. -/
theorem step_command_or_block {s t : State} (h : step s = .next t) :
    (∃ k c, hostChoice s = some k ∧ nextCommand s k = some c ∧
        runCommand c (dropCommand (passTurn s) k) = .next t) ∨
      (hostChoice s = none ∧ t.gate = s.gate ∧ t.req = s.req ∧ t.mem = s.mem ∧ t.params = s.params) := by
  obtain hc | ⟨hn, -, hp⟩ | ⟨hn, -, -, rfl⟩ := step_next h
  · exact .inl hc
  · obtain ⟨-, hgate, hreq, hmem, -, -, -, hparams, -⟩ := perform_frame hp
    exact .inr ⟨hn, hgate, hreq, hmem, hparams⟩
  · exact .inr ⟨hn, rfl, rfl, rfl, rfl⟩

/-- Settles O47: neither a host command nor the block touches the parameters. -/
theorem stepKeepsParameters : Obligations.StepKeepsParameters := by
  intro s t h
  obtain ⟨k, c, -, -, hc⟩ | ⟨-, -, -, -, hparams⟩ := step_command_or_block h
  · simpa using runCommand_params hc
  · exact hparams

/-- Settles O48: the block leaves GATE, and of the commands only RESET and a first INIT change it. -/
theorem gateChangesOnlyByInitOrReset : Obligations.GateChangesOnlyByInitOrReset := by
  intro s t h hne
  obtain ⟨k, c, hk, hn, hc⟩ | ⟨-, hgate, -⟩ := step_command_or_block h
  · exact ⟨k, c, hk, hn, by simpa using runCommand_gate hc (by simpa using hne)⟩
  · exact absurd hgate hne

/-- Settles O49: a case for each way `step_next` gives; the end of a run leaves PHASE. -/
theorem phaseFollowsProtocol : Obligations.PhaseFollowsProtocol := by
  refine ⟨rfl, fun s t h hne => ?_⟩
  obtain ⟨k, c, hk, hn, hc⟩ | ⟨hn, hw, hp⟩ | ⟨-, -, -, rfl⟩ := step_next h
  · obtain ⟨d, rfl, hs, ht⟩ | ⟨rfl, hs, ht⟩ | ⟨rfl, ht⟩ := runCommand_phase hc (by simpa using hne)
    · exact .inl ⟨k, d, hk, hn, hs, ht⟩
    · exact .inr (.inr (.inl ⟨k, hk, hn, hs, ht⟩))
    · exact .inr (.inr (.inr ⟨k, hk, hn, ht⟩))
  · obtain ⟨hph, -⟩ := perform_frame hp
    exact .inr (.inl ⟨hn, hw, hph⟩)
  · exact absurd rfl hne

/-- Settles O50: the block leaves REQ, and of the commands only SUBMIT, TAKE and RESET change it. -/
theorem requestWrittenOnlyBySubmit : Obligations.RequestWrittenOnlyBySubmit := by
  intro s t h hne
  obtain ⟨k, c, hk, hn, hc⟩ | ⟨-, -, hreq, -⟩ := step_command_or_block h
  · exact ⟨k, c, hk, hn, by simpa using runCommand_req hc (by simpa using hne)⟩
  · exact absurd hreq hne

/-! ### The response PERFORM leaves -/

theorem decLoop_length_le (fuel v : Nat) (s : List Byte) :
    (decLoop fuel v s).length ≤ fuel + s.length := by
  induction fuel generalizing v s with
  | zero => simp [decLoop]
  | succ n ih =>
    simp only [decLoop]
    split
    · omega
    · have := ih (v / 10) (decDigit (v % 10) :: s)
      simp only [List.length_cons] at this
      omega

/-- The decimal text of a 64-bit value has at most 20 characters (00_scope.md R6). -/
theorem encDecimal_length_le (h : Word64) : (encDecimal h).length ≤ 20 := by
  unfold encDecimal
  split
  · simp
  · exact decLoop_length_le Config.decMaxChars h.toNat []

theorem encDecimal_length_pos (h : Word64) : 1 ≤ (encDecimal h).length := by
  unfold encDecimal
  split
  · simp
  · have hv : h.toNat ≠ 0 := fun h0 => ‹h ≠ 0#64› (BitVec.eq_of_toNat_eq h0)
    rw [Config.decMaxChars, decLoop, if_neg hv, decLoop_append]
    simp

theorem encBuffer_length (h : Word64) : (encBuffer h).length = 8 := rfl

theorem encHex_length (h : Word64) : (encHex h).length = 16 := rfl

theorem responseWf_errorResponse {st : Status} (h : st ≠ .ok) : responseWf (errorResponse st) := by
  cases st with
  | ok => exact absurd rfl h
  | invalidKeyLength | illegalOperation => exact ⟨rfl, rfl, rfl, rfl⟩

theorem responseOf_status (i : Instr) (v : Word64) : (responseOf i v).status = .ok := by
  cases i <;> rfl

theorem responseOf_kind (i : Instr) (v : Word64) : (responseOf i v).kind = some i.opCode := by
  cases i <;> rfl

/-- Each operation's response has the fields of its kind; AsString's LEN holds its length, which is at most
20 (30_encoding.md R55). -/
theorem responseWf_responseOf (i : Instr) (v : Word64) : responseWf (responseOf i v) := by
  cases i with
  | asBuffer => exact ⟨encBuffer_length v, .inl ⟨rfl, rfl, rfl⟩⟩
  | asString =>
    have hle := encDecimal_length_le v
    have hn : (BitVec.ofNat 5 (encDecimal v).length).toNat = (encDecimal v).length := by
      rw [BitVec.toNat_ofNat]
      omega
    exact ⟨hn.symm, .inr (.inl ⟨rfl, by rw [hn]; exact encDecimal_length_pos v, by rwa [hn], rfl⟩)⟩
  | asHexString => exact ⟨encHex_length v, .inr (.inr (.inl ⟨rfl, rfl, rfl⟩))⟩
  | asUInt32Low => exact ⟨rfl, .inr (.inr (.inr (.inl ⟨rfl, rfl, rfl⟩)))⟩
  | asUInt32High => exact ⟨rfl, .inr (.inr (.inr (.inr ⟨rfl, rfl, rfl⟩)))⟩

theorem statusOf_of_error {q : Request} {e : Illegal} (h : decode q = .error e) :
    statusOf q = .illegalOperation := by
  simp [statusOf, h]

theorem statusOf_of_ok {q : Request} {i : Instr} (h : decode q = .ok i) :
    statusOf q = if i.keyLen ≠ 32 then .invalidKeyLength else .ok := by
  obtain ⟨-, -, -, hk, -⟩ := decode_ok h
  simp [statusOf, h, hk]

/-- `r` answers the request `q`: well formed, with the status the checks give `q`, and of its kind if OK
(30_encoding.md R54, R55, R56; 60_exceptions.md R96). -/
def Answers (q : Request) (r : Response) : Prop :=
  responseWf r ∧ r.status = statusOf q ∧ (r.status = .ok → r.kind = some q.op)

theorem answers_errorResponse {q : Request} {st : Status} (h : statusOf q = st) (hst : st ≠ .ok) :
    Answers q (errorResponse st) :=
  ⟨responseWf_errorResponse hst, h.symm, fun hok => absurd hok hst⟩

theorem answers_responseOf {q : Request} {i : Instr} (h : decode q = .ok i) (hk : i.keyLen = 32)
    (v : Word64) : Answers q (responseOf i v) := by
  obtain ⟨-, hop, -⟩ := decode_ok h
  refine ⟨responseWf_responseOf i v, ?_, fun _ => by rw [responseOf_kind, hop]⟩
  rw [responseOf_status, statusOf_of_ok h, if_neg (by simp [hk])]

/-- PERFORM answers the latched request, and leaves no value in `LANE` or `H` that found none there
(10_state.md R23, R24). -/
theorem perform_answers {s t : State} (h : perform s = .next t) :
    ∃ q r, s.req = some q ∧ t.resp = some r ∧ Answers q r ∧
      (s.lane = none → t.lane = none) ∧ (s.h = none → t.h = none) := by
  obtain ⟨-, q, hq, ⟨⟨e, he⟩, rfl⟩ | ⟨i, hi, hx⟩⟩ := perform_next h
  · exact ⟨q, _, hq, rfl, answers_errorResponse (statusOf_of_error he) (by decide), id, id⟩
  · rw [exec_eq] at hx
    obtain ⟨-, ⟨hk, rfl⟩ | ⟨hk, k, m, -, -, rfl⟩⟩ := performRequest_next hx
    · have hst : statusOf q = .invalidKeyLength := by rw [statusOf_of_ok hi, if_pos hk]
      exact ⟨q, _, hq, rfl, answers_errorResponse hst (by decide), id, id⟩
    · exact ⟨q, _, hq, rfl, answers_responseOf hi hk _, fun _ => rfl, fun _ => rfl⟩

/-! ### The invariant -/

/-- An idle block that is empty meets the invariant, whatever its GATE is. -/
theorem inv_of_idle {s : State} (hparams : s.params.wf) (hmem : Memory.wf s.params.addrWidth s.mem)
    (hphase : s.phase = .idle) (hreq : s.req = none) (hlane : s.lane = none) (hh : s.h = none)
    (hresp : s.resp = none) : Inv s where
  params := hparams
  mem := hmem
  lane := hlane
  h := hh
  idle _ := ⟨hreq, hresp⟩
  busy hp := absurd hphase hp
  working hp := by simp [hphase] at hp
  responding hp := by simp [hphase] at hp

/-- The invariant speaks of the block, the memory and the parameters only. -/
theorem inv_congr {s t : State} (hs : Inv s) (hblock : blockOf t = blockOf s)
    (hparams : t.params = s.params) (hmem : Memory.wf s.params.addrWidth t.mem) : Inv t := by
  obtain ⟨hgate, hphase, hreq, hlane, hh, hresp⟩ := blockOf_eq hblock
  constructor
  · rw [hparams]; exact hs.params
  · rw [hparams]; exact hmem
  · rw [hlane]; exact hs.lane
  · rw [hh]; exact hs.h
  · rw [hphase, hreq, hresp]; exact hs.idle
  · rw [hphase, hgate, hreq, hparams]; exact hs.busy
  · rw [hphase, hresp]; exact hs.working
  · rw [hphase, hreq, hresp]; exact hs.responding

theorem inv_resetBlock {s : State} (hs : Inv s) : Inv (resetBlock s) :=
  inv_of_idle hs.params hs.mem rfl rfl rfl rfl rfl

theorem inv_takeResponse {s : State} (r : Response) (hs : Inv s) : Inv (takeResponse r s) :=
  inv_of_idle hs.params hs.mem rfl rfl rfl rfl rfl

/-- INIT decides GATE only in an idle block, since an operation in flight has GATE = READY. -/
theorem inv_initGate {s : State} (hs : Inv s) : Inv (initGate s) := by
  by_cases hp : s.phase = .idle
  · obtain ⟨hreq, hresp⟩ := hs.idle hp
    exact inv_of_idle (by simpa using hs.params) (by simpa using hs.mem) (by simpa) (by simpa)
      (by simpa using hs.lane) (by simpa using hs.h) (by simpa)
  · obtain ⟨hg, -⟩ := hs.busy hp
    rwa [initGate_of_decided (by simp [hg])]

theorem requestFits_latch {p : Params} {d : Descriptor} (h : d.fits p.addrWidth p.lenWidth = true) :
    requestFits p d.latch := by
  simpa [Descriptor.fits, requestFits, Descriptor.latch, and_assoc] using h

theorem inv_latchRequest {s : State} {d : Descriptor} (hs : Inv s) (hg : s.gate = .ready)
    (hp : s.phase = .idle) (hd : d.fits s.params.addrWidth s.params.lenWidth = true) :
    Inv (latchRequest d s) where
  params := hs.params
  mem := hs.mem
  lane := hs.lane
  h := hs.h
  idle h := by simp at h
  busy _ := ⟨hg, d.latch, rfl, requestFits_latch hd⟩
  working _ := (hs.idle hp).2
  responding h := by simp at h

theorem runCommand_keeps_inv {c : Command} {s t : State} (hs : Inv s) (h : runCommand c s = .next t) :
    Inv t := by
  obtain ⟨-, rfl⟩ | ⟨-, rfl⟩ | ⟨d, -, hg, hp, hd, rfl⟩ | ⟨r, -, -, rfl⟩ | ⟨hb, hparams, hmem⟩ :=
    runCommand_block h
  · exact inv_resetBlock hs
  · exact inv_initGate hs
  · exact inv_latchRequest hs hg hp hd
  · exact inv_takeResponse r hs
  · exact inv_congr hs hb hparams (hmem hs.mem)

theorem perform_keeps_inv {s t : State} (hs : Inv s) (h : perform s = .next t) : Inv t := by
  obtain ⟨hphase, hgate, hreq, hmem, -, -, -, hparams, -⟩ := perform_frame h
  obtain ⟨hw, -⟩ := perform_next h
  obtain ⟨q, r, hq, hr, ⟨hwf, hstatus, hkind⟩, hlane, hh⟩ := perform_answers h
  have hbusy := hs.busy (by simp [hw])
  constructor
  · rw [hparams]; exact hs.params
  · rw [hparams, hmem]; exact hs.mem
  · exact hlane hs.lane
  · exact hh hs.h
  · simp [hphase]
  · rw [hgate, hreq, hparams]; exact fun _ => hbusy
  · simp [hphase]
  · exact fun _ => ⟨q, r, hreq.trans hq, hr, hwf, hstatus, hkind⟩

/-- Settles O45: the turn and the sequences are outside the invariant, and every command's effect and PERFORM
keep it. -/
theorem stepKeepsInvariant : Obligations.StepKeepsInvariant := by
  intro s t hs h
  have hpass : Inv (passTurn s) := inv_congr hs rfl rfl hs.mem
  obtain ⟨k, c, -, -, hc⟩ | ⟨-, -, hp⟩ | ⟨-, -, -, rfl⟩ := step_next h
  · have hdrop : Inv (dropCommand (passTurn s) k) := inv_congr hpass rfl rfl hpass.mem
    exact runCommand_keeps_inv hdrop hc
  · exact perform_keeps_inv hpass hp
  · exact hpass

end Sys2Proof.Machine
end

section
/-! PROOFS of the family 20_memory.md: what a read and a view answer, what an operation does with the views
it reads, and what a step does to host memory. -/

namespace Sys2Proof.Machine

open Sys2Proof.Safety

/-! ### A read of one byte -/

/-- In canonical form no earlier cell hides a listed one, so the byte found is the byte listed. -/
theorem lookup_eq_some_iff {m : Memory} (hm : m.Pairwise (fun c d => c.1 < d.1)) {a : Nat} {b : Byte} :
    Memory.lookup m a = some b ↔ (a, b) ∈ m := by
  induction m with
  | nil => simp [Memory.lookup]
  | cons c cs ih =>
    obtain ⟨hlt, hcs⟩ := List.pairwise_cons.1 hm
    rw [Memory.lookup, List.mem_cons, Prod.ext_iff]
    by_cases hc : c.1 = a
    · have htail : (a, b) ∉ cs := fun hmem => by have := hlt _ hmem; omega
      simp [hc, htail, eq_comm]
    · simp [hc, Ne.symm hc, ih hcs]

theorem memRead_of_lt {s : State} {a : Nat} (ha : a < 2 ^ s.params.addrWidth) :
    memRead s a = Memory.lookup s.mem a :=
  if_pos ha

/-- No address past the top of the address space is admitted (20_memory.md R33). -/
theorem memRead_of_le {s : State} {a : Nat} (ha : 2 ^ s.params.addrWidth ≤ a) : memRead s a = none :=
  if_neg (by omega)

theorem lt_of_memRead_eq_some {s : State} {a : Nat} {b : Byte} (h : memRead s a = some b) :
    a < 2 ^ s.params.addrWidth := by
  by_contra ha
  simp [memRead_of_le (Nat.le_of_not_lt ha)] at h

/-- Settles O13: canonical form gives the bound of a listed address and that the first cell found is it. -/
theorem readReturnsListedByte : Obligations.ReadReturnsListedByte := by
  intro s a b ⟨hsorted, hbound⟩
  constructor
  · intro h
    rwa [memRead_of_lt (lt_of_memRead_eq_some h), lookup_eq_some_iff hsorted] at h
  · intro h
    rwa [memRead_of_lt (hbound _ h), lookup_eq_some_iff hsorted]

/-! ### A read of a view -/

theorem viewHolds_nil (s : State) (ptr : Nat) : viewHolds s ptr [] := by
  simp [viewHolds]

theorem viewHolds_cons {s : State} {ptr : Nat} {b : Byte} {bs : List Byte} :
    viewHolds s ptr (b :: bs) ↔ memRead s ptr = some b ∧ viewHolds s (ptr + 1) bs := by
  constructor
  · intro h
    refine ⟨h 0 b rfl, fun i c hc => ?_⟩
    rw [Nat.add_right_comm]
    exact h (i + 1) c hc
  · rintro ⟨hb, hbs⟩ i c hc
    cases i with
    | zero => rwa [← Option.some.inj hc]
    | succ i =>
      rw [← Nat.add_assoc, Nat.add_right_comm]
      exact hbs i c hc

theorem readView_cons_ok {s : State} {ptr n : Nat} {b : Byte} {bs : List Byte} :
    readView s ptr (n + 1) = .ok (b :: bs) ↔ memRead s ptr = some b ∧ readView s (ptr + 1) n = .ok bs := by
  constructor
  · intro h
    obtain ⟨_, _, he, hb, hbs⟩ := readView_succ_ok h
    cases he
    exact ⟨hb, hbs⟩
  · rintro ⟨hb, hbs⟩
    simp [readView, hb, hbs]

/-- Settles O11, by induction on the length: a view is its first byte and the view behind it. -/
theorem viewReadsInOrder : Obligations.ViewReadsInOrder := by
  intro s ptr n bs
  induction n generalizing ptr bs with
  | zero =>
    rw [readView, List.length_eq_zero_iff]
    constructor
    · rintro ⟨⟩
      exact ⟨rfl, viewHolds_nil s ptr⟩
    · rintro ⟨rfl, -⟩
      rfl
  | succ n ih =>
    cases bs with
    | nil =>
      constructor
      · intro h
        simpa using readView_length h
      · rintro ⟨h, -⟩
        simp at h
    | cons b bs =>
      rw [readView_cons_ok, ih, viewHolds_cons, List.length_cons, Nat.add_right_cancel_iff, and_left_comm]

/-- Settles O12: the last address of a view past the top is outside the address space. -/
theorem wrappingViewIsStuck : Obligations.WrappingViewIsStuck := by
  intro s ptr n
  constructor
  · intro hn hwrap
    exact readView_error_of_none ⟨n - 1, by omega, memRead_of_le (by omega)⟩
  · rintro rfl
    rfl

/-! ### What an operation does with its views -/

theorem exec_of_wrong_keyLen {i : Instr} {s : State} (hp : s.phase = .working) (hk : i.keyLen ≠ 32) :
    exec i s = .next (raise .invalidKeyLength s) := by
  rw [exec_eq, performRequest_eq hp, if_pos hk]

theorem exec_of_key_error {i : Instr} {s : State} {a : Nat} (hp : s.phase = .working)
    (hk : i.keyLen = 32) (ha : readView s i.keyPtr 32 = .error a) :
    exec i s = .fault (.stuckRead a) := by
  rw [exec_eq, performRequest_eq hp, if_neg (by simp [hk]), ha]

theorem exec_of_msg_error {i : Instr} {s : State} {a : Nat} {k : List Byte} (hp : s.phase = .working)
    (hk : i.keyLen = 32) (hkey : readView s i.keyPtr 32 = .ok k)
    (ha : readView s i.msgPtr i.msgLen = .error a) : exec i s = .fault (.stuckRead a) := by
  rw [exec_eq, performRequest_eq hp, if_neg (by simp [hk]), hkey, ha]

theorem exec_of_views {i : Instr} {s : State} {k m : List Byte} (hp : s.phase = .working)
    (hk : i.keyLen = 32) (hkey : readView s i.keyPtr 32 = .ok k)
    (hmsg : readView s i.msgPtr i.msgLen = .ok m) :
    exec i s = .next { s with
      lane := none, h := none, phase := .responding,
      resp := some (responseOf i (Config.mix s.params.hashAlgorithm (lanesOf k) m i.msgLen)) } := by
  rw [exec_eq, performRequest_eq hp, if_neg (by simp [hk]), hkey, hmsg]

/-- Settles O22: the key view is read first; where it is admitted, the unadmitted byte is the message's. -/
theorem unadmittedByteIsStuck : Obligations.UnadmittedByteIsStuck := by
  intro i s hp hk hnone
  by_cases hkey : ∃ j, j < 32 ∧ memRead s (i.keyPtr + j) = none
  · obtain ⟨a, ha, hlo, hhi, hread⟩ := readView_error_of_none hkey
    exact ⟨a, exec_of_key_error hp hk ha, hread, .inl ⟨hlo, hhi⟩⟩
  · obtain ⟨k, hkey'⟩ := readView_ok_of_admitted (fun j hj hn => hkey ⟨j, hj, hn⟩)
    obtain ⟨a, ha, hlo, hhi, hread⟩ := readView_error_of_none (hnone.resolve_left hkey)
    exact ⟨a, exec_of_msg_error hp hk hkey' ha, hread, .inr ⟨hlo, hhi⟩⟩

/-- Settles O24: an operation with a next state raised an error or left a result, and in both cases changed
nothing else. -/
theorem entryOperationsFrame : Obligations.EntryOperationsFrame := by
  intro i s t h
  rw [exec_eq] at h
  obtain ⟨-, ⟨-, rfl⟩ | ⟨-, k, m, -, -, rfl⟩⟩ := performRequest_next h
  · exact ⟨rfl, rfl, rfl, rfl, fun _ => rfl, rfl, rfl, rfl, rfl, rfl, id, id⟩
  · exact ⟨rfl, rfl, rfl, rfl, fun _ => rfl, rfl, rfl, rfl, rfl, rfl, fun _ => rfl, fun _ => rfl⟩

/-- Of an operation only its code decides the response to a HashResult. -/
theorem responseOf_congr {i j : Instr} (h : i.opCode = j.opCode) (v : Word64) :
    responseOf i v = responseOf j v := by
  cases i <;> cases j <;> cases h <;> rfl

/-- Settles O26: a wrong key length gives one error response, and equal views give one HashResult. -/
theorem resultDependsOnlyOnViews : Obligations.ResultDependsOnlyOnViews := by
  intro i j s u hop hlen hs hu halg hviews
  by_cases hk : i.keyLen = 32
  · obtain ⟨hmlen, k, m, hki, hkj, hmi, hmj⟩ := hviews hk
    refine ⟨_, _, _, exec_of_views hs hk hki hmi, exec_of_views hu (hlen.1 hk) hkj hmj, rfl, ?_⟩
    rw [responseOf_congr hop, halg, hmlen]
  · have hk' : j.keyLen ≠ 32 := fun hj => hk (hlen.2 hj)
    exact ⟨_, _, _, exec_of_wrong_keyLen hs hk, exec_of_wrong_keyLen hu hk', rfl, rfl⟩

/-! ### What the host's write and withdrawal do to a read -/

theorem memRead_write_other {s t : State} {a x : Nat} {bs : List Byte}
    (hm : t.mem = Memory.write s.mem a bs) (hp : t.params = s.params) (hx : x < a ∨ a + bs.length ≤ x) :
    memRead t x = memRead s x := by
  rw [memRead, memRead, hm, hp, lookup_write_other bs s.mem hx]

theorem memRead_withdraw_inside {s t : State} {a n x : Nat} (hm : t.mem = Memory.withdraw s.mem a n)
    (hx : a ≤ x ∧ x < a + n) : memRead t x = none := by
  rw [memRead, hm, lookup_withdraw, if_pos hx, ite_self]

theorem memRead_withdraw_other {s t : State} {a n x : Nat} (hm : t.mem = Memory.withdraw s.mem a n)
    (hp : t.params = s.params) (hx : x < a ∨ a + n ≤ x) : memRead t x = memRead s x := by
  have hout : ¬ (a ≤ x ∧ x < a + n) := by omega
  rw [memRead, memRead, hm, hp, lookup_withdraw, if_neg hout]

theorem runCommand_withdraw {s : State} {a n : Nat} (ht : touchesReads s a n = false)
    (ha : a + n ≤ 2 ^ s.params.addrWidth) :
    runCommand (.withdraw a n) s = .next { s with mem := Memory.withdraw s.mem a n } := by
  simp [runCommand, commandEnabled, ht, runWithdraw, ha]

/-- Settles O40: the withdrawal is enabled and fits, and a lookup after it is one before it or nothing. -/
theorem withdrawalEndsAdmission : Obligations.WithdrawalEndsAdmission := by
  intro s a n ht ha
  exact ⟨_, runCommand_withdraw ht ha, rfl, fun x hlo hhi => memRead_withdraw_inside rfl ⟨hlo, hhi⟩,
    fun x hx => memRead_withdraw_other rfl rfl hx⟩

/-! ### What a step does to host memory -/

/-- A host command that changes memory is a write or a withdrawal that fits the address space and touches no
view it has to wait for. -/
theorem runCommand_mem {c : Command} {s t : State} (h : runCommand c s = .next t) :
    t.mem = s.mem ∨
      (∃ a bs, c = .write a bs ∧ touchesFlight s a bs.length = false ∧
        a + bs.length ≤ 2 ^ s.params.addrWidth ∧ t.mem = Memory.write s.mem a bs) ∨
      (∃ a n, c = .withdraw a n ∧ touchesReads s a n = false ∧ t.mem = Memory.withdraw s.mem a n) := by
  obtain ⟨he, ht⟩ := runCommand_next h
  cases c with
  | reset => exact .inl (by rw [ht, resetBlock_mem])
  | init => exact .inl (by rw [ht, initGate_mem])
  | submit d =>
    obtain ⟨-, rfl⟩ := ht
    exact .inl rfl
  | take =>
    obtain ⟨r, -, rfl⟩ := ht
    exact .inl rfl
  | write a bs =>
    obtain ⟨ha, rfl⟩ := ht
    exact .inr (.inl ⟨a, bs, rfl, by simpa [commandEnabled] using he, ha, rfl⟩)
  | withdraw a n =>
    obtain ⟨-, rfl⟩ := ht
    exact .inr (.inr ⟨a, n, rfl, by simpa [commandEnabled] using he, rfl⟩)
  | readSignals => exact .inl (by rw [ht])
  | readResp f =>
    obtain ⟨v, -, rfl⟩ := ht
    exact .inl rfl

/-- A step that changes memory is a host write or a host withdrawal, and this is its effect; all that the
command waits for is what it finds in `s`, since the turn and the sequences play no part in it. -/
theorem step_mem {s t : State} (h : step s = .next t) :
    t.mem = s.mem ∨
      (∃ k a bs, hostChoice s = some k ∧ nextCommand s k = some (.write a bs) ∧
        touchesFlight s a bs.length = false ∧ a + bs.length ≤ 2 ^ s.params.addrWidth ∧
        t.mem = Memory.write s.mem a bs) ∨
      (∃ k a n, hostChoice s = some k ∧ nextCommand s k = some (.withdraw a n) ∧
        touchesReads s a n = false ∧ t.mem = Memory.withdraw s.mem a n) := by
  obtain ⟨k, c, hk, hn, hc⟩ | ⟨-, -, -, hmem, -⟩ := step_command_or_block h
  · obtain hmem | ⟨a, bs, rfl, htouch, ha, hmem⟩ | ⟨a, n, rfl, htouch, hmem⟩ := runCommand_mem hc
    · exact .inl hmem
    · exact .inr (.inl ⟨k, a, bs, hk, hn, htouch, ha, hmem⟩)
    · exact .inr (.inr ⟨k, a, n, hk, hn, htouch, hmem⟩)
  · exact .inl hmem

/-- Settles O53: a write that moves touches no view in flight, and a withdrawal that moves touches no byte
PERFORM reads; it ends the admission of an unread byte or leaves it as it is. -/
theorem viewsAreStableInFlight : Obligations.ViewsAreStableInFlight := by
  intro s t q x hflight hq h
  have hp : t.params = s.params := stepKeepsParameters s t h
  obtain hmem | ⟨k, a, bs, -, -, htouch, -, hmem⟩ | ⟨k, a, n, hk, hn, htouch, hmem⟩ := step_mem h
  · have hsame := memRead_congr hmem hp x
    exact ⟨fun _ => hsame, fun _ => .inl hsame⟩
  · have hsame (hx : inViews q x) : memRead t x = memRead s x :=
      memRead_write_other hmem hp (not_touchesFlight hflight hq htouch hx)
    exact ⟨fun hx => hsame hx.2, fun hx => .inl (hsame hx)⟩
  · refine ⟨fun hx => memRead_withdraw_other hmem hp (not_touchesReads hflight hq htouch hx), fun _ => ?_⟩
    by_cases hin : a ≤ x ∧ x < a + n
    · exact .inr ⟨memRead_withdraw_inside hmem hin, k, a, n, hk, hn⟩
    · exact .inl (memRead_withdraw_other hmem hp (by omega))

/-- Settles O46: memory is as it was, or a write or a withdrawal kept its form. -/
theorem stepKeepsMemoryCanonical : Obligations.StepKeepsMemoryCanonical := by
  intro s t hwf h
  rw [stepKeepsParameters s t h]
  obtain hmem | ⟨_, _, _, -, -, -, ha, hmem⟩ | ⟨_, a, n, -, -, -, hmem⟩ := step_mem h <;> rw [hmem]
  · exact hwf
  · exact wf_write hwf ha
  · exact wf_withdraw a n hwf

/-- Settles O52: of the three cases of `step_mem`, one leaves memory and two are the host's. -/
theorem blockNeverWritesMemory : Obligations.BlockNeverWritesMemory := by
  intro s t h hne
  obtain hmem | ⟨k, a, bs, hk, hn, -⟩ | ⟨k, a, n, hk, hn, -⟩ := step_mem h
  · exact absurd hmem hne
  · exact ⟨k, _, hk, hn, .inl ⟨a, bs, rfl⟩⟩
  · exact ⟨k, _, hk, hn, .inr ⟨a, n, rfl⟩⟩

end Sys2Proof.Machine
end

section
/-! PROOFS of the family 30_encoding.md: the encoder and the decoder undo each other, what a response holds,
what a host write and a malformed command do, and the step of a placed word. -/

namespace Sys2Proof

open Sys2Proof.Safety

/-! ### Decoding what was encoded -/

theorem decode_latch_encode (i : Instr) : decode (encode i).latch = .ok i := by
  have hr := encode_rsvd i
  have ho := encode_op i
  cases i with
  | asBuffer => exact decode_asBuffer hr ho
  | asString => exact decode_asString hr ho
  | asHexString => exact decode_asHexString hr ho
  | asUInt32Low => exact decode_asUInt32Low hr ho
  | asUInt32High => exact decode_asUInt32High hr ho

/-- Shifting the lowest field out leaves the fields above it. -/
theorem add_two_pow_mul_div {k x : Nat} (hx : x < 2 ^ k) (y : Nat) : (x + 2 ^ k * y) / 2 ^ k = y := by
  rw [Nat.add_mul_div_left _ _ (Nat.two_pow_pos k), Nat.div_eq_of_lt hx, Nat.zero_add]

/-- Masking keeps the lowest field. -/
theorem add_two_pow_mul_mod {k x : Nat} (hx : x < 2 ^ k) (y : Nat) : (x + 2 ^ k * y) % 2 ^ k = x := by
  rw [Nat.add_mul_mod_self_left, Nat.mod_eq_of_lt hx]

/-- Each field is what a mask keeps of the number once the fields below it are shifted out. -/
theorem ofBits_toBits {aw lw : Nat} {d : Descriptor} (h : d.fits aw lw = true) :
    Descriptor.ofBits aw lw (d.toBits aw lw) = d := by
  simp only [Descriptor.fits, Bool.and_eq_true, decide_eq_true_eq] at h
  obtain ⟨⟨⟨h1, h2⟩, h3⟩, h4⟩ := h
  have hw0 := d.w0.isLt
  have h0 : BitVec.ofNat 64 (d.toBits aw lw) = d.w0 := by
    rw [← BitVec.toNat_inj, BitVec.toNat_ofNat, Descriptor.toBits, add_two_pow_mul_mod hw0]
  rw [Descriptor.ofBits, h0, Descriptor.toBits, add_two_pow_mul_div hw0, add_two_pow_mul_mod h1,
    add_two_pow_mul_div h1, add_two_pow_mul_mod h2, add_two_pow_mul_div h2, add_two_pow_mul_mod h3,
    add_two_pow_mul_div h3, Nat.mod_eq_of_lt h4]

/-- Settles O1: the bits give back the descriptor, and the descriptor gives back the operation. -/
theorem requestBitsRoundTrip : Obligations.RequestBitsRoundTrip := by
  intro aw lw i hi
  have hfits : (encode i).fits aw lw = true := hi
  rw [decodeBits, encodeBits, ofBits_toBits hfits, decode_latch_encode]

/-! ### Encoding what was decoded -/

/-- OP and RSVD are all of a control word (R48). -/
theorem rsvd_append_op (w : Word64) : w.extractLsb' 3 61 ++ w.extractLsb' 0 3 = w :=
  (BitVec.extractLsb'_append_extractLsb'_eq_extractLsb' rfl).trans BitVec.extractLsb'_eq_self

theorem encode_of_decode_ok {d : Descriptor} {i : Instr} (h : decode d.latch = .ok i) : encode i = d := by
  obtain ⟨hr, hop, h1, h2, h3, h4⟩ := decode_ok h
  have h0 : 0#61 ++ i.opCode = d.w0 := by
    rw [← hr, ← hop]
    exact rsvd_append_op d.w0
  cases d
  rw [encode, h0, ← h1, ← h2, ← h3, ← h4]
  rfl

theorem legalWord_iff_decode_ok {d : Descriptor} : legalWord d.w0 ↔ ∃ i, decode d.latch = .ok i := by
  constructor
  · rintro ⟨ho | ho | ho | ho | ho, hr⟩
    · exact ⟨_, decode_asBuffer hr ho⟩
    · exact ⟨_, decode_asString hr ho⟩
    · exact ⟨_, decode_asHexString hr ho⟩
    · exact ⟨_, decode_asUInt32Low hr ho⟩
    · exact ⟨_, decode_asUInt32High hr ho⟩
  · rintro ⟨i, hi⟩
    obtain ⟨hr, hop, -⟩ := decode_ok hi
    refine ⟨?_, hr⟩
    change d.w0.extractLsb' 0 3 = i.opCode at hop
    rw [hop]
    cases i <;> simp [Instr.opCode]

/-- Settles O2: the decoder answers exactly the legal words with an operation, which encodes to the
descriptor; another operation that does would be decoded from it too. -/
theorem decodingIsTotalAndUnique : Obligations.DecodingIsTotalAndUnique := by
  intro d
  cases hd : decode d.latch with
  | ok i =>
    refine .inl ⟨legalWord_iff_decode_ok.2 ⟨i, hd⟩, i, rfl, encode_of_decode_ok hd, ?_⟩
    rintro j rfl
    rw [decode_latch_encode] at hd
    cases hd
    rfl
  | error e =>
    refine .inr ⟨fun hl => ?_, e, rfl⟩
    obtain ⟨i, hi⟩ := legalWord_iff_decode_ok.1 hl
    rw [hd] at hi
    cases hi

theorem decode_latch_of_w0 {w : Word64} {i : Instr} (hw : 0#61 ++ i.opCode = w) :
    decode (Descriptor.latch ⟨w, i.keyPtr, i.keyLen, i.msgPtr, i.msgLen⟩) = .ok i := by
  rw [← hw]
  exact decode_latch_encode i

/-- Settles O3: the five words are the five codes with RSVD = 0, and no other word of 95_test_vectors.md
table D is legal. -/
theorem controlWordsDecode : Obligations.ControlWordsDecode := by
  intro kp kl mp ml
  refine ⟨decode_latch_of_w0 (i := .asBuffer kp kl mp ml) (by rw [Instr.opCode]; decide),
    decode_latch_of_w0 (i := .asString kp kl mp ml) (by rw [Instr.opCode]; decide),
    decode_latch_of_w0 (i := .asHexString kp kl mp ml) (by rw [Instr.opCode]; decide),
    decode_latch_of_w0 (i := .asUInt32Low kp kl mp ml) (by rw [Instr.opCode]; decide),
    decode_latch_of_w0 (i := .asUInt32High kp kl mp ml) (by rw [Instr.opCode]; decide), fun w hw => ?_⟩
  have hillegal : ¬ legalWord w := by
    simp only [List.mem_cons, List.not_mem_nil, or_false] at hw
    unfold legalWord
    rcases hw with rfl | rfl | rfl | rfl | rfl | rfl | rfl <;> decide
  cases hd : decode (Descriptor.latch ⟨w, kp, kl, mp, ml⟩) with
  | ok i => exact absurd (legalWord_iff_decode_ok.2 ⟨i, hd⟩) hillegal
  | error e => exact ⟨e, rfl⟩

end Sys2Proof

namespace Sys2Proof.Machine

open Sys2Proof.Safety

/-! ### What a response holds -/

/-- An operation with a next state leaves an error response or its own. -/
theorem exec_resp {i : Instr} {s t : State} (h : exec i s = .next t) :
    t.resp = some (errorResponse .invalidKeyLength) ∨ ∃ v, t.resp = some (responseOf i v) := by
  rw [exec_eq] at h
  obtain ⟨-, ⟨-, rfl⟩ | ⟨-, k, m, -, -, rfl⟩⟩ := performRequest_next h
  · exact .inl rfl
  · exact .inr ⟨_, rfl⟩

/-- Settles O25: an operation's two responses are well formed, and PERFORM answers the latched request. -/
theorem responsesAreWellFormed : Obligations.ResponsesAreWellFormed := by
  refine ⟨fun i s t h => ?_, fun s t h => ?_⟩
  · obtain hr | ⟨v, hr⟩ := exec_resp h
    · exact ⟨_, hr, responseWf_errorResponse (by decide), nofun, nofun⟩
    · refine ⟨_, hr, responseWf_responseOf i v, fun _ => responseOf_kind i v, ?_⟩
      rw [responseOf_status]
      nofun
  · obtain ⟨q, r, hq, hr, ⟨hwf, hstatus, hkind⟩, -, -⟩ := perform_answers h
    exact ⟨q, r, hq, hr, hwf, hstatus, hkind⟩

/-! ### What a host command on memory does where it need not wait -/

theorem runCommand_submit_eq {s : State} {d : Descriptor} (hg : s.gate = .ready) (hp : s.phase = .idle) :
    runCommand (.submit d) s = runSubmit d s :=
  if_pos (commandEnabled_submit.2 ⟨hg, hp⟩)

theorem runCommand_write_eq {s : State} {a : Nat} {bs : List Byte}
    (h : touchesFlight s a bs.length = false) : runCommand (.write a bs) s = runWrite a bs s :=
  if_pos (by rw [commandEnabled, h, Bool.not_false])

theorem runCommand_withdraw_eq {s : State} {a n : Nat} (h : touchesReads s a n = false) :
    runCommand (.withdraw a n) s = runWithdraw a n s :=
  if_pos (by rw [commandEnabled, h, Bool.not_false])

/-- The bytes of a host write that fits the address space read back where they were written. -/
theorem viewHolds_write {s t : State} {a : Nat} {bs : List Byte} (hm : t.mem = Memory.write s.mem a bs)
    (hp : t.params = s.params) (ha : a + bs.length ≤ 2 ^ s.params.addrWidth) : viewHolds t a bs := by
  intro i b hb
  obtain ⟨hi, -⟩ := List.getElem?_eq_some_iff.1 hb
  rw [memRead_of_lt (by rw [hp]; omega), hm, lookup_write_inside bs s.mem a i b hb]

/-- Settles O39: the write is enabled and fits, and a read after it finds a written byte or the old one. -/
theorem hostWriteAdmitsBytes : Obligations.HostWriteAdmitsBytes := by
  intro s a bs htouch ha
  have hrun : runCommand (.write a bs) s = .next { s with mem := Memory.write s.mem a bs } := by
    rw [runCommand_write_eq htouch, runWrite, if_pos ha]
  exact ⟨_, hrun, rfl, viewHolds_write rfl rfl ha, fun x hx => memRead_write_other rfl rfl hx⟩

/-- Settles O41: each command is enabled, and its effect checks the operand. -/
theorem malformedCommandIsRefused : Obligations.MalformedCommandIsRefused := by
  intro s
  refine ⟨fun d hg hp hd => ?_, fun a bs htouch ha => ?_, fun a n htouch ha => ?_⟩
  · rw [runCommand_submit_eq hg hp, runSubmit, if_neg (by simp [hd])]
  · rw [runCommand_write_eq htouch, runWrite, if_neg (by omega)]
  · rw [runCommand_withdraw_eq htouch, runWithdraw, if_neg (by omega)]

/-! ### The step of a placed word -/

theorem perform_placeRequest (i : Instr) (s : State) :
    perform (placeRequest (encode i) s) = exec i (placeRequest (encode i) s) := by
  simp [perform, decode_latch_encode]

/-- The step performs a placed operation that is not stuck; with a key length other than 32 it reads no
memory, and is not (20_memory.md R34). -/
theorem step_placeRequest {i : Instr} (s : State) (hk : i.keyLen ≠ 32) :
    step (placeRequest (encode i) s) = exec i (placeRequest (encode i) s) := by
  have hperform := perform_placeRequest i s
  have hexec := exec_of_wrong_keyLen (placeRequest_phase (encode i) s) hk
  have henabled : performEnabled (placeRequest (encode i) s) = true := by
    rw [performEnabled, hperform, hexec]
  rw [step_of_hostChoice_none (hostChoice_of_perform rfl henabled) rfl]
  exact hperform

/-- A word of the opcode table is the descriptor of an operation with that code, and W1 to W4 are 0. -/
theorem tableDescriptor_eq_encode {w : Nat} (hw : w < 5) :
    ∃ i, tableDescriptor 64 w = encode i ∧ i.opCode.toNat = w ∧ i.keyLen = 0 := by
  match w, hw with
  | 0, _ => exact ⟨.asBuffer 0 0 0 0, by decide, rfl, rfl⟩
  | 1, _ => exact ⟨.asString 0 0 0 0, by decide, rfl, rfl⟩
  | 2, _ => exact ⟨.asHexString 0 0 0 0, by decide, rfl, rfl⟩
  | 3, _ => exact ⟨.asUInt32Low 0 0 0 0, by decide, rfl, rfl⟩
  | 4, _ => exact ⟨.asUInt32High 0 0 0 0, by decide, rfl, rfl⟩

/-- Settles O29: the word is an encoded operation, whose key length 0 keeps it from being stuck. -/
theorem placedWordRuns : Obligations.PlacedWordRuns := by
  intro s w hw
  obtain ⟨i, hi, hop, hk⟩ := tableDescriptor_eq_encode hw
  refine ⟨i, by rw [decodeTableWord, hi, decode_latch_encode], hop, ?_⟩
  rw [State.withFetchWord, hi]
  exact step_placeRequest s (by omega)

end Sys2Proof.Machine
end

section
/-! PROOFS of the family 40_hashcore.md: the lanes of a key, and an operation on an empty message. -/

namespace Sys2Proof.Machine

/-! ### Bytes of a little-endian number -/

theorem leNat_eq_sum (bs : List Byte) :
    leNat bs = ∑ j ∈ Finset.range bs.length, (bs.getD j 0#8).toNat * 2 ^ (8 * j) := by
  induction bs with
  | nil => rfl
  | cons b bs ih =>
    have htail (j : Nat) : ((b :: bs).getD (j + 1) 0#8).toNat * 2 ^ (8 * (j + 1)) =
        256 * ((bs.getD j 0#8).toNat * 2 ^ (8 * j)) := by
      rw [List.getD_cons_succ, Nat.mul_succ, Nat.pow_add]
      ring
    rw [leNat, ih, List.length_cons, Finset.sum_range_succ', Finset.sum_congr rfl fun j _ => htail j,
      ← Finset.mul_sum, List.getD_cons_zero, Nat.mul_zero, Nat.pow_zero, Nat.mul_one, Nat.add_comm]

/-- Shifting the bytes below byte `j` out and masking leaves that byte. -/
theorem leNat_shift_mod {bs : List Byte} {j : Nat} {b : Byte} (h : bs[j]? = some b) :
    (leNat bs >>> (8 * j)) % 2 ^ 8 = b.toNat := by
  induction bs generalizing j with
  | nil => simp at h
  | cons c bs ih =>
    have hc := c.isLt
    cases j with
    | zero =>
      cases h
      rw [leNat, Nat.mul_zero, Nat.shiftRight_zero]
      omega
    | succ j =>
      have hhigh : leNat (c :: bs) >>> 8 = leNat bs := by
        rw [leNat, Nat.shiftRight_eq_div_pow]
        omega
      rw [Nat.mul_succ, Nat.add_comm, Nat.shiftRight_add, hhigh]
      exact ih h

/-- `LE64` is exact on at most 8 bytes (00_scope.md R10). -/
theorem le64_toNat {bs : List Byte} (h : bs.length ≤ 8) : (le64 bs).toNat = leNat bs := by
  have hlt : leNat bs < 2 ^ 64 :=
    (leNat_lt bs).trans_le (Nat.pow_le_pow_right (by decide) (by omega))
  rw [le64, BitVec.toNat_ofNat, Nat.mod_eq_of_lt hlt]

theorem le64_extractLsb' {bs : List Byte} (h : bs.length ≤ 8) {j : Nat} {b : Byte} (hb : bs[j]? = some b) :
    (le64 bs).extractLsb' (8 * j) 8 = b := by
  rw [← BitVec.toNat_inj, BitVec.extractLsb'_toNat, le64_toNat h, leNat_shift_mod hb]

/-! ### The lanes of a key -/

/-- The bytes of lane `i`: key bytes 8i to 8i + 7 (R63). -/
def laneBytes (k : List Byte) (i : Nat) : List Byte := (k.drop (8 * i)).take 8

theorem lanesOf_get (k : List Byte) (i : Fin 4) : (lanesOf k)[i] = le64 (laneBytes k i) := by
  match i with
  | 0 | 1 | 2 | 3 => rfl

theorem laneBytes_length {k : List Byte} {i : Nat} (h : 8 * i + 8 ≤ k.length) :
    (laneBytes k i).length = 8 := by
  rw [laneBytes, List.length_take, List.length_drop]
  omega

theorem laneBytes_getElem? (k : List Byte) (i : Nat) {j : Nat} (hj : j < 8) :
    (laneBytes k i)[j]? = k[8 * i + j]? := by
  rw [laneBytes, List.getElem?_take_of_lt hj, List.getElem?_drop]

/-- Settles O10: a lane is `LE64` of its own 8 bytes, which is their sum and holds each as its bits. -/
theorem lanesAreLittleEndian : Obligations.LanesAreLittleEndian := by
  intro k hk i
  have hlen : (laneBytes k i).length = 8 := laneBytes_length (by omega)
  rw [lanesOf_get]
  refine ⟨?_, fun j hj => ?_⟩
  · rw [le64_toNat hlen.le, leNat_eq_sum, hlen]
    refine Finset.sum_congr rfl fun j hj => ?_
    rw [List.getD_eq_getElem?_getD, laneBytes_getElem? k i (Finset.mem_range.1 hj),
      ← List.getD_eq_getElem?_getD]
  · have hb : k[8 * i.val + j]? = some k[8 * i.val + j] := List.getElem?_eq_getElem (by omega)
    rw [hb, le64_extractLsb' hlen.le ((laneBytes_getElem? k i hj).trans hb)]

/-! ### An empty message -/

/-- Settles O23: the view of length 0 at any pointer reads as no byte, so both views are readable. -/
theorem emptyMessageIgnoresPointer : Obligations.EmptyMessageIgnoresPointer := by
  intro i s k hp hk hm hkey
  have hmsg : readView s i.msgPtr i.msgLen = .ok [] := by rw [hm, readView]
  exact ⟨_, exec_of_views hp hk hkey hmsg, by rw [hm]⟩

end Sys2Proof.Machine
end

section
/-! PROOFS of the family 41_result_encoder.md: the Buffer, decimal and hex encodings and the two halves. -/

namespace Sys2Proof.Machine

open Sys2Proof.Safety

/-! ### The decimal text -/

theorem parseDecimal_concat (bs : List Byte) (b : Byte) :
    parseDecimal (bs ++ [b]) = 10 * parseDecimal bs + (b.toNat - 0x30) :=
  List.foldl_concat ..

/-- The loop of R73 writes the digits of `v div 10` and then that of `v mod 10`. -/
theorem decLoop_succ (fuel : Nat) {v : Nat} (hv : v ≠ 0) :
    decLoop (fuel + 1) v [] = decLoop fuel (v / 10) [] ++ [decDigit (v % 10)] := by
  rw [decLoop, if_neg hv, decLoop_append]

@[simp] theorem decLoop_of_zero (fuel : Nat) (s : List Byte) : decLoop fuel 0 s = s := by
  cases fuel <;> rfl

theorem parseDecimal_decLoop {fuel v : Nat} (hv : v < 10 ^ fuel) : parseDecimal (decLoop fuel v []) = v := by
  induction fuel generalizing v with
  | zero => rw [Nat.lt_one_iff.1 hv]; rfl
  | succ n ih =>
    by_cases h0 : v = 0
    · rw [h0, decLoop_of_zero]; rfl
    · rw [decLoop_succ n h0, parseDecimal_concat, ih (by omega), decDigit_toNat (by omega)]
      omega

theorem decLoop_digits (fuel v : Nat) : ∀ b ∈ decLoop fuel v [], 0x30 ≤ b.toNat ∧ b.toNat ≤ 0x39 := by
  induction fuel generalizing v with
  | zero => simp [decLoop]
  | succ n ih =>
    intro b hb
    by_cases h0 : v = 0
    · simp [h0] at hb
    · rw [decLoop_succ n h0, List.mem_append, List.mem_singleton] at hb
      obtain hb | rfl := hb
      · exact ih _ b hb
      · rw [decDigit_toNat (by omega)]
        omega

/-- With fuel for all digits the text has no leading zero: where no digit stands before the last one, it is
the text of 0, and the last digit is `v` itself. -/
theorem decLoop_head? {fuel v : Nat} (hv : v < 10 ^ fuel) : (decLoop fuel v []).head? ≠ some 0x30#8 := by
  induction fuel generalizing v with
  | zero => simp [decLoop]
  | succ n ih =>
    by_cases h0 : v = 0
    · simp [h0]
    · have hq : v / 10 < 10 ^ n := by omega
      rw [decLoop_succ n h0, List.head?_append]
      cases hd : (decLoop n (v / 10) []).head? with
      | some c => exact fun heq => ih hq (hd.trans heq)
      | none =>
        have hzero : v / 10 = 0 := by
          rw [← parseDecimal_decLoop hq, List.head?_eq_none_iff.1 hd]
          rfl
        intro heq
        have hdigit : decDigit (v % 10) = 0x30#8 := Option.some.inj heq
        have hval : 0x30 + v % 10 = 0x30 := by rw [← decDigit_toNat (by omega), hdigit]; rfl
        omega

theorem encDecimal_zero : encDecimal 0#64 = [0x30#8] := rfl

theorem encDecimal_of_ne_zero {h : Word64} (hne : h ≠ 0#64) : encDecimal h = decLoop 20 h.toNat [] :=
  if_neg hne

/-- A 64-bit value has at most 20 decimal digits (00_scope.md R6). -/
theorem word64_lt_pow_ten (h : Word64) : h.toNat < 10 ^ 20 := h.isLt.trans (by decide)

theorem parseDecimal_encDecimal (h : Word64) : parseDecimal (encDecimal h) = h.toNat := by
  by_cases hz : h = 0#64
  · rw [hz]; rfl
  · rw [encDecimal_of_ne_zero hz, parseDecimal_decLoop (word64_lt_pow_ten h)]

theorem encDecimal_digits (h : Word64) : ∀ b ∈ encDecimal h, 0x30 ≤ b.toNat ∧ b.toNat ≤ 0x39 := by
  by_cases hz : h = 0#64
  · rw [hz, encDecimal_zero]; decide
  · rw [encDecimal_of_ne_zero hz]; exact decLoop_digits 20 h.toNat

/-- Settles O5: the loop's text has the value, the digits and the first character, by induction on its fuel. -/
theorem decimalIsCanonical : Obligations.DecimalIsCanonical := by
  intro h
  refine ⟨parseDecimal_encDecimal h, encDecimal_length_pos h, encDecimal_length_le h, encDecimal_digits h,
    fun hne => ?_, fun hz => ?_⟩
  · rw [encDecimal_of_ne_zero hne]
    exact decLoop_head? (word64_lt_pow_ten h)
  · rw [hz, encDecimal_zero]

/-! ### The Buffer bytes -/

theorem encBuffer_eq_map (h : Word64) :
    encBuffer h = (List.range 8).map (fun k => h.extractLsb' (8 * k) 8) :=
  List.map_congr_left fun k _ => byte_of_shift h (8 * k)

theorem encBuffer_getElem? (h : Word64) {k : Nat} (hk : k < 8) :
    (encBuffer h)[k]? = some (h.extractLsb' (8 * k) 8) := by
  rw [encBuffer_eq_map, List.getElem?_map, List.getElem?_range hk]
  rfl

/-- Settles O4: each byte's shift and mask cut out its 8 bits. -/
theorem bufferIsLittleEndianBytes : Obligations.BufferIsLittleEndianBytes :=
  fun h => ⟨encBuffer_length h, fun _ hk => encBuffer_getElem? h hk⟩

/-! ### The hex text -/

/-- SHIFT goes through the bytes in order, the high nibble of each first (90_conflicts.md C1). -/
theorem hexShift_eq_flatMap : hexShift = (List.range 8).flatMap (fun k => [8 * k + 4, 8 * k]) := rfl

theorem hexShift_getElem? :
    ∀ k, k < 8 → hexShift[2 * k]? = some (8 * k + 4) ∧ hexShift[2 * k + 1]? = some (8 * k) := by
  decide

theorem encHex_eq_map (h : Word64) :
    encHex h = hexShift.map (fun n => hexDigit (h.extractLsb' n 4).toNat) :=
  List.map_congr_left fun n _ => congrArg hexDigit (nibble_of_shift h n)

theorem encHex_getElem? (h : Word64) {p n : Nat} (hp : hexShift[p]? = some n) :
    (encHex h)[p]? = some (hexDigit (h.extractLsb' n 4).toNat) := by
  rw [encHex_eq_map, List.getElem?_map, hp]
  rfl

theorem hexDigit_toNat_of_lt_ten : ∀ n, n < 10 → (hexDigit n).toNat = 0x30 + n := by decide

theorem hexDigit_toNat_of_ge_ten :
    ∀ n, n < 16 → 10 ≤ n → (hexDigit n).toNat = 0x61 + (n - 10) := by decide

/-- Settles O6: a character is the digit of the nibble at its SHIFT, and SHIFT swaps the nibbles of a byte. -/
theorem hexIsNibbleSwapped : Obligations.HexIsNibbleSwapped := by
  refine ⟨fun h => ⟨encHex_length h, fun k hk => ?_⟩, hexDigit_toNat_of_lt_ten,
    fun n hge hlt => hexDigit_toNat_of_ge_ten n hlt hge⟩
  obtain ⟨hhigh, hlow⟩ := hexShift_getElem? k hk
  exact ⟨encHex_getElem? h hhigh, encHex_getElem? h hlow⟩

theorem byte_div_sixteen (h : Word64) (k : Nat) :
    (h.extractLsb' k 8).toNat / 16 = (h.extractLsb' (k + 4) 4).toNat := by
  simp only [BitVec.extractLsb'_toNat, Nat.shiftRight_add]
  omega

theorem byte_mod_sixteen (h : Word64) (k : Nat) :
    (h.extractLsb' k 8).toNat % 16 = (h.extractLsb' k 4).toNat := by
  simp only [BitVec.extractLsb'_toNat]
  omega

/-- Settles O7: both texts list, for the bytes of `h` in order, the digits of the high and the low nibble. -/
theorem hexIsDumpOfBuffer : Obligations.HexIsDumpOfBuffer := by
  intro h
  rw [encHex_eq_map, hexShift_eq_flatMap, List.map_flatMap, encBuffer_eq_map, List.flatMap_map]
  simp only [byte_div_sixteen, byte_mod_sixteen, List.map_cons, List.map_nil]

/-! ### The halves -/

theorem encLow_toNat (h : Word64) : (encLow h).toNat = h.toNat % 2 ^ 32 := by
  have hmask : h.toNat &&& (2 ^ 32 - 1) = h.toNat % 2 ^ 32 := Nat.and_two_pow_sub_one_eq_mod _ 32
  rw [encLow, BitVec.toNat_setWidth, BitVec.toNat_and]
  exact (congrArg (· % 2 ^ 32) hmask).trans (Nat.mod_mod ..)

theorem encLow_eq_extractLsb' (h : Word64) : encLow h = h.extractLsb' 0 32 := by
  rw [← BitVec.toNat_inj, encLow_toNat, BitVec.extractLsb'_toNat, Nat.shiftRight_zero]

theorem encHigh_eq_extractLsb' (h : Word64) : encHigh h = h.extractLsb' 32 32 := rfl

theorem encHigh_toNat (h : Word64) : (encHigh h).toNat = h.toNat / 2 ^ 32 := by
  have := h.isLt
  rw [encHigh_eq_extractLsb', BitVec.extractLsb'_toNat, Nat.shiftRight_eq_div_pow]
  omega

/-- Settles O8: the mask keeps the low 32 bits, and a word shifted right by 32 fits 32 bits. -/
theorem halvesAreUnsigned : Obligations.HalvesAreUnsigned :=
  fun h => ⟨encLow_eq_extractLsb' h, encLow_toNat h, encHigh_eq_extractLsb' h, encHigh_toNat h⟩

/-! ### The encodings give `h` back -/

theorem encLow_or_encHigh (h : Word64) :
    (encLow h).setWidth 64 ||| ((encHigh h).setWidth 64 <<< 32) = h := by
  rw [encLow_eq_extractLsb', encHigh_eq_extractLsb']
  apply BitVec.eq_of_getLsbD_eq
  intro i hi
  by_cases hlow : i < 32
  · simp [hi, hlow]
  · have hhigh : i - 32 < 32 := by omega
    have hsum : 32 + (i - 32) = i := by omega
    simp [hi, hlow, hhigh, hsum]

/-- Two words are equal when their 8 bytes are: bit `i` is bit `i mod 8` of byte `i div 8`. -/
theorem word64_eq_of_bytes {x y : Word64}
    (h : ∀ k, k < 8 → x.extractLsb' (8 * k) 8 = y.extractLsb' (8 * k) 8) : x = y := by
  apply BitVec.eq_of_getLsbD_eq
  intro i hi
  have hbit := congrArg (·.getLsbD (i % 8)) (h (i / 8) (by omega))
  simpa [Nat.mod_lt, Nat.div_add_mod] using hbit

theorem le64_encBuffer (h : Word64) : le64 (encBuffer h) = h :=
  word64_eq_of_bytes fun _ hk => le64_extractLsb' (encBuffer_length h).le (encBuffer_getElem? h hk)

/-- Settles O9: the halves cover all 64 bits, the bytes are those of `h`, and the text parses to `h`. -/
theorem encodingsAgree : Obligations.EncodingsAgree :=
  fun h => ⟨encLow_or_encHigh h, le64_encBuffer h, parseDecimal_encDecimal h⟩

end Sys2Proof.Machine
end

section
/-! PROOFS of the family 42_entry_operations.md: when the host receives a response, what the five entry
operations answer, and what SUBMIT, TAKE and INIT do. -/

namespace Sys2Proof.Machine

open Sys2Proof.Safety

/-! ### The host's record of responses -/

theorem takenResponses_congr {s t : State} (h : t.observed = s.observed) :
    takenResponses t = takenResponses s := by
  rw [takenResponses, takenResponses, h]

theorem takenResponses_takeResponse (r : Response) (s : State) :
    takenResponses (takeResponse r s) = takenResponses s ++ [r] := by
  rw [takenResponses, takeResponse_observed, List.filterMap_append]
  rfl

/-- An observation that is no response leaves the record of responses. -/
theorem takenResponses_of_not_taken {s t : State} {o : Observation}
    (h : t.observed = s.observed ++ [o]) (ho : ∀ r, o ≠ .taken r) : takenResponses t = takenResponses s := by
  rw [takenResponses, h, List.filterMap_append]
  cases o with
  | taken r => exact absurd rfl (ho r)
  | signals | field => exact List.append_nil _

/-- Of the host's commands only TAKE adds to the record of responses, and it adds what RESP holds. -/
theorem runCommand_takenResponses {c : Command} {s t : State} (h : runCommand c s = .next t) :
    takenResponses t = takenResponses s ∨
      ∃ r, c = .take ∧ s.phase = .responding ∧ s.resp = some r ∧
        takenResponses t = takenResponses s ++ [r] := by
  obtain ⟨he, ht⟩ := runCommand_next h
  cases c with
  | reset => exact .inl (by rw [ht, takenResponses_congr (resetBlock_observed s)])
  | init => exact .inl (by rw [ht, takenResponses_congr (initGate_observed s)])
  | submit d =>
    obtain ⟨-, rfl⟩ := ht
    exact .inl rfl
  | take =>
    obtain ⟨r, hr, rfl⟩ := ht
    exact .inr ⟨r, rfl, commandEnabled_take.1 he, hr, takenResponses_takeResponse r s⟩
  | write a bs =>
    obtain ⟨-, rfl⟩ := ht
    exact .inl rfl
  | withdraw a n =>
    obtain ⟨-, rfl⟩ := ht
    exact .inl rfl
  | readSignals => exact .inl (takenResponses_of_not_taken (congrArg State.observed ht) nofun)
  | readResp f =>
    obtain ⟨v, -, rfl⟩ := ht
    exact .inl (takenResponses_of_not_taken rfl nofun)

/-- Settles O56: PERFORM and the end of a run observe nothing, and of the commands only TAKE delivers. -/
theorem responsesComeOnlyByTake : Obligations.ResponsesComeOnlyByTake := by
  intro s t h
  obtain ⟨k, c, hk, hn, hc⟩ | ⟨-, -, hp⟩ | ⟨-, -, -, rfl⟩ := step_next h
  · obtain hsame | ⟨r, rfl, hphase, hresp, hgrow⟩ := runCommand_takenResponses hc
    · exact .inl hsame
    · exact .inr ⟨k, r, hk, hn, hphase, hresp, hgrow⟩
  · obtain ⟨-, -, -, -, -, -, hobserved, -⟩ := perform_frame hp
    exact .inl (takenResponses_congr hobserved)
  · exact .inl rfl

/-! ### The five entry operations -/

/-- With RSVD = 0 a control word is its operation's code (30_encoding.md R48). -/
theorem encode_w0 (i : Instr) : (encode i).w0 = i.opCode.setWidth 64 := by
  have h : ∀ o : BitVec 3, (0#61 ++ o : BitVec 64) = o.setWidth 64 := by decide
  exact h _

/-- What any operation answers while PHASE = WORKING: the error of a wrong key length, or where both views
can be read the response of its own encoder. -/
theorem exec_answers {i : Instr} {s : State} (hp : s.phase = .working) :
    (i.keyLen ≠ 32 → exec i s =
      .next { s with resp := some (errorOnly .invalidKeyLength), phase := .responding }) ∧
    (i.keyLen = 32 → ∀ k m, readView s i.keyPtr 32 = .ok k → readView s i.msgPtr i.msgLen = .ok m →
      ∃ t, exec i s = .next t ∧ t = { s with
        lane := t.lane, h := t.h, phase := .responding,
        resp := some (responseOf i (Config.mix s.params.hashAlgorithm (lanesOf k) m i.msgLen)) }) :=
  ⟨exec_of_wrong_keyLen hp, fun hk _ _ hkey hmsg => ⟨_, exec_of_views hp hk hkey hmsg, rfl⟩⟩

/-- Settles O14: EncBuffer's 8 bytes are the response of AsBuffer. -/
theorem asBufferAnswers : Obligations.AsBufferAnswers :=
  fun _ kptr klen mptr mlen hp => ⟨encode_w0 _, exec_answers (i := .asBuffer kptr klen mptr mlen) hp⟩

/-- Settles O15: LEN is the number of digits, which its 5 bits hold since the response is well formed. -/
theorem asStringAnswers : Obligations.AsStringAnswers := by
  intro s kptr klen mptr mlen hp
  obtain ⟨herror, hresult⟩ := exec_answers (i := .asString kptr klen mptr mlen) hp
  refine ⟨encode_w0 _, herror, fun hk k m hkey hmsg => ?_⟩
  obtain ⟨t, hexec, ht⟩ := hresult hk k m hkey hmsg
  obtain ⟨hlen, -⟩ := responseWf_responseOf (.asString kptr klen mptr mlen)
    (Config.mix s.params.hashAlgorithm (lanesOf k) m mlen)
  exact ⟨t, _, _, rfl, hlen.symm, hexec, ht⟩

/-- Settles O16: EncHex's 16 digits are the response of AsHexString. -/
theorem asHexStringAnswers : Obligations.AsHexStringAnswers :=
  fun _ kptr klen mptr mlen hp => ⟨encode_w0 _, exec_answers (i := .asHexString kptr klen mptr mlen) hp⟩

/-- Settles O17: the low half is the response of AsUInt32Low. -/
theorem asUInt32LowAnswers : Obligations.AsUInt32LowAnswers :=
  fun _ kptr klen mptr mlen hp => ⟨encode_w0 _, exec_answers (i := .asUInt32Low kptr klen mptr mlen) hp⟩

/-- Settles O18: the high half is the response of AsUInt32High. -/
theorem asUInt32HighAnswers : Obligations.AsUInt32HighAnswers :=
  fun _ kptr klen mptr mlen hp => ⟨encode_w0 _, exec_answers (i := .asUInt32High kptr klen mptr mlen) hp⟩

/-! ### PERFORM of a latched request -/

theorem perform_of_decode_ok {s : State} {q : Request} {i : Instr} (hp : s.phase = .working)
    (hq : s.req = some q) (hi : decode q = .ok i) : perform s = exec i s := by
  simp [perform, hp, hq, hi]

/-- Settles O27: with no host command chosen the step is PERFORM, and PERFORM is the decoded operation. -/
theorem stepRunsDecodedRequest : Obligations.StepRunsDecodedRequest := by
  intro s q i hp hq hi hnone
  rw [step_of_hostChoice_none hnone hp]
  exact perform_of_decode_ok (s := passTurn s) hp hq hi

/-! ### SUBMIT, TAKE and INIT -/

/-- Settles O32: an enabled SUBMIT of a descriptor that fits latches its fields. -/
theorem submitLatchesDescriptor : Obligations.SubmitLatchesDescriptor := by
  intro s d
  refine ⟨commandEnabled_submit, fun hg hp hd => ?_⟩
  rw [runCommand_submit_eq hg hp, runSubmit, if_pos hd]
  rfl

theorem runCommand_of_not_enabled {s : State} {c : Command} (h : commandEnabled s c ≠ true) :
    runCommand c s = .fault .notEnabled :=
  if_neg h

theorem runCommand_take_of_resp {s : State} {r : Response} (hp : s.phase = .responding)
    (hr : s.resp = some r) : runCommand .take s = .next (takeResponse r s) := by
  simp [runCommand, commandEnabled, hp, runTake, hr]

/-- Settles O33: a TAKE that is enabled delivers what RESP holds, and any other has no step. -/
theorem takeDeliversAndClears : Obligations.TakeDeliversAndClears :=
  fun _ => ⟨commandEnabled_take, fun _ hp hr => runCommand_take_of_resp hp hr,
    fun hp => runCommand_of_not_enabled fun he => hp (commandEnabled_take.1 he)⟩

theorem runCommand_init (s : State) : runCommand .init s = .next (initGate s) := rfl

theorem initGate_of_capable {s : State} (hg : s.gate = .uninit) (hc : s.params.capability = true) :
    initGate s = { s with gate := .ready } := by
  simp [initGate, hg, hc]

theorem initGate_of_incapable {s : State} (hg : s.gate = .uninit) (hc : s.params.capability = false) :
    initGate s = { s with gate := .failed } := by
  simp [initGate, hg, hc]

/-- Settles O34: INIT runs `initGate`, which asks for CAPABILITY while GATE = UNINIT and else does nothing. -/
theorem initDecidesGateOnce : Obligations.InitDecidesGateOnce := by
  intro s
  rw [runCommand_init]
  refine ⟨rfl, fun hg hc => ⟨?_, rfl⟩, fun hg hc => ⟨?_, rfl⟩, fun hg => ?_⟩
  · rw [initGate_of_capable hg hc]
  · rw [initGate_of_incapable hg hc]
  · have hdecided : s.gate ≠ .uninit := by rcases hg with hg | hg <;> simp [hg]
    rw [initGate_of_decided hdecided]

end Sys2Proof.Machine
end

section
/-! PROOFS of the family 60_exceptions.md: the two errors PERFORM raises, the order of its checks, and the
block whose GATE = FAILED. -/

namespace Sys2Proof.Machine

open Sys2Proof.Safety

/-! ### The two errors -/

/-- Settles O19: the key length is checked before a view is read, and `raise` is the frame. -/
theorem wrongKeyLengthIsReported : Obligations.WrongKeyLengthIsReported :=
  ⟨rfl, fun _ _ hp hk => exec_of_wrong_keyLen hp hk⟩

theorem perform_of_decode_error {s : State} {q : Request} {e : Illegal} (hp : s.phase = .working)
    (hq : s.req = some q) (he : decode q = .error e) : perform s = .next (raise .illegalOperation s) := by
  simp [perform, hp, hq, he]

theorem decode_error_of_not_legalWord {d : Descriptor} (h : ¬ legalWord d.w0) :
    ∃ e, decode d.latch = .error e := by
  cases hd : decode d.latch with
  | ok i => exact absurd (legalWord_iff_decode_ok.2 ⟨i, hd⟩) h
  | error e => exact ⟨e, rfl⟩

/-- Settles O20: an illegal word is not decoded, and PERFORM decodes before it does anything else. -/
theorem illegalWordIsReported : Obligations.IllegalWordIsReported := by
  refine ⟨rfl, fun d s hp hq hillegal => ?_⟩
  obtain ⟨e, he⟩ := decode_error_of_not_legalWord hillegal
  exact perform_of_decode_error hp hq he

/-! ### The order of the checks -/

theorem commandEnabled_submit_of_not_ready {s : State} (hg : s.gate ≠ .ready) (d : Descriptor) :
    commandEnabled s (.submit d) = false := by
  simp [commandEnabled, hg]

/-- Settles O21: the gate holds the SUBMIT, the decoder finds the illegal word, and a decoded operation checks
its key length before it reads its views. -/
theorem checksComeInOrder : Obligations.ChecksComeInOrder := by
  refine fun s => ⟨fun d hg => commandEnabled_submit_of_not_ready hg d, fun q hp hq => ⟨?_, ?_, ?_⟩⟩
  · intro e he
    exact ⟨_, perform_of_decode_error hp hq he, rfl⟩
  · intro i hi hk
    obtain ⟨-, -, -, hlen, -⟩ := decode_ok hi
    rw [perform_of_decode_ok hp hq hi]
    exact ⟨_, exec_of_wrong_keyLen hp (hlen ▸ hk), rfl⟩
  · intro i hi hk hnone
    obtain ⟨-, -, hkeyPtr, hkeyLen, hmsgPtr, hmsgLen⟩ := decode_ok hi
    rw [hkeyPtr, hmsgPtr, hmsgLen] at hnone
    rw [perform_of_decode_ok hp hq hi]
    obtain ⟨a, ha, -⟩ := unadmittedByteIsStuck i s hp (hkeyLen ▸ hk) hnone
    exact ⟨a, ha⟩

/-! ### Nobody can move -/

theorem submitWaits_iff {s : State} :
    submitWaits s = true ↔ ∃ k d, nextCommand s k = some (.submit d) := by
  unfold submitWaits
  rw [List.any_eq_true]
  constructor
  · rintro ⟨cs, hcs, hsubmit⟩
    obtain ⟨k, hk⟩ := List.mem_iff_getElem?.1 hcs
    split at hsubmit
    · exact ⟨k, _, by rw [nextCommand, hk]⟩
    · cases hsubmit
  · rintro ⟨k, d, hk⟩
    unfold nextCommand at hk
    split at hk
    · rename_i hs
      cases hk
      exact ⟨_, List.mem_of_getElem? hs, rfl⟩
    · cases hk

/-- A run whose host has a command left has not ended (70_reset_and_hazards.md R122). -/
theorem runEnded_of_nextCommand {s : State} {k : Nat} {c : Command} (h : nextCommand s k = some c) :
    runEnded s = false := by
  have hleft : commandsDone s = false := by
    by_contra hdone
    rw [commandsDone_iff.1 (by simpa using hdone) k] at h
    cases h
  simp [runEnded, hleft]

/-- With nobody able to move, an idle block ends the run or is stuck. -/
theorem step_of_idle_nobody {s : State} (hp : s.phase = .idle) (hs : ∀ k, streamEnabled s k = false) :
    step s = if runEnded s then .next (passTurn s) else .fault (stuckReason s) := by
  simp only [step, stepOnce, hostChoice_of_nobody hs, blockStep, passTurn_phase, hp]
  rfl

theorem stuckReason_of_failed {s : State} (hg : s.gate = .failed) (hp : s.phase = .idle)
    (hw : submitWaits s = true) : stuckReason s = .stuckGateFailed :=
  if_pos ⟨hg, hp, hw⟩

/-! ### The failed gate -/

/-- Only RESET changes a GATE that is FAILED (60_exceptions.md R92). -/
theorem step_gate_of_failed {s t : State} (hg : s.gate = .failed) (h : step s = .next t) :
    t.gate = .failed ∨ ∃ k, hostChoice s = some k ∧ nextCommand s k = some .reset := by
  by_cases hsame : t.gate = s.gate
  · exact .inl (hsame.trans hg)
  · obtain ⟨k, c, hk, hc, ⟨rfl, -⟩ | ⟨-, huninit⟩⟩ := gateChangesOnlyByInitOrReset s t h hsame
    · exact .inr ⟨k, hk, hc⟩
    · rw [hg] at huninit
      cases huninit

/-- A block that is idle stays so where GATE is not READY: the one way out of IDLE is a SUBMIT (R81). -/
theorem step_phase_of_idle_not_ready {s t : State} (hg : s.gate ≠ .ready) (hp : s.phase = .idle)
    (h : step s = .next t) : t.phase = .idle := by
  by_contra hne
  obtain ⟨-, hfollows⟩ := phaseFollowsProtocol
  obtain ⟨k, d, hk, hc, -⟩ | ⟨-, hw, -⟩ | ⟨k, -, -, -, ht⟩ | ⟨k, -, -, ht⟩ := hfollows s t h (by rwa [hp])
  · obtain ⟨c, hc', he⟩ := hostChoice_some hk
    rw [hc] at hc'
    cases hc'
    obtain ⟨hready, -⟩ := commandEnabled_submit.1 he
    exact hg hready
  · rw [hp] at hw
    cases hw
  · exact hne ht
  · exact hne ht

/-- Where every sequence that has a command left waits with a SUBMIT, no sequence can move while GATE is not
READY. -/
theorem streamEnabled_of_only_submits {s : State} (hg : s.gate ≠ .ready)
    (honly : ∀ k c, nextCommand s k = some c → ∃ d, c = .submit d) (k : Nat) : streamEnabled s k = false := by
  by_contra hk
  obtain ⟨c, hc, he⟩ := streamEnabled_iff.1 (by simpa using hk)
  obtain ⟨d, rfl⟩ := honly k c hc
  rw [commandEnabled_submit_of_not_ready hg d] at he
  cases he

/-- Settles O51: a SUBMIT is not enabled, so that it neither starts an operation nor lets its sequence move. -/
theorem failedGateAcceptsNoRequest : Obligations.FailedGateAcceptsNoRequest := by
  refine ⟨fun s t hg hp h => ?_, fun s hg hp hw honly => ?_⟩
  · exact ⟨step_phase_of_idle_not_ready (by simp [hg]) hp h, step_gate_of_failed hg h⟩
  · obtain ⟨k, d, hk⟩ := submitWaits_iff.1 hw
    rw [step_of_idle_nobody hp (streamEnabled_of_only_submits (by simp [hg]) honly),
      runEnded_of_nextCommand hk, stuckReason_of_failed hg hp hw, if_neg Bool.false_ne_true]

end Sys2Proof.Machine
end

section
/-! PROOFS of the family 70_reset_and_hazards.md: what RESET leaves, what a read of RESP answers, which
commands wait and on what, when PERFORM completes, and the end of a run. -/

namespace Sys2Proof.Machine

open Sys2Proof.Safety

/-! ### RESET -/

theorem runCommand_reset (s : State) : runCommand .reset s = .next (resetBlock s) := rfl

theorem blockOf_resetBlock (s : State) :
    blockOf (resetBlock s) = (.uninit, .idle, none, none, none, none) := rfl

/-- Settles O35: RESET runs `resetBlock`, which writes those six elements and the host's record. -/
theorem resetClearsBlock : Obligations.ResetClearsBlock :=
  fun s => ⟨rfl, resetBlock s, runCommand_reset s, rfl⟩

/-- Settles O36: both blocks are the one block of R108. -/
theorem powerOnEqualsReset : Obligations.PowerOnEqualsReset := by
  refine ⟨rfl, fun s t h => ?_⟩
  cases h
  exact blockOf_resetBlock s

theorem config_params_wf : Config.params.wf := ⟨Nat.le_add_left 1 _, Nat.le_add_left 6 _⟩

/-- Settles O44: the block of State.reset is idle and empty, and its memory is empty. -/
theorem resetMeetsInvariant : Obligations.ResetMeetsInvariant :=
  inv_of_idle config_params_wf wf_reset rfl rfl rfl rfl rfl

/-- Settles O55: the step is `resetBlock`, which delivers nothing, and a GATE that is UNINIT holds every
SUBMIT. -/
theorem resetDiscardsOperation : Obligations.ResetDiscardsOperation := by
  intro s t k _ hk hc h
  rw [step_of_hostChoice_some hk hc, runCommand_reset] at h
  cases h
  exact ⟨rfl, rfl, rfl, rfl, rfl, rfl, commandEnabled_submit_of_not_ready nofun⟩

/-! ### Reads of RESP -/

theorem runCommand_readResp_not_responding {s : State} (hp : s.phase ≠ .responding) (f : RespField) :
    runCommand (.readResp f) s = .fault (.readBottom .resp) := by
  simp [runCommand, commandEnabled, runReadResp, readRespField, hp]

theorem runCommand_readResp_of_some {s : State} {r : Response} {f : RespField} {v : FieldValue}
    (hp : s.phase = .responding) (hr : s.resp = some r) (hv : respFieldValue r f = some v) :
    runCommand (.readResp f) s = .next { s with observed := s.observed ++ [.field f v] } := by
  simp [runCommand, commandEnabled, runReadResp, readRespField, hp, hr, hv]

theorem runCommand_readResp_of_none {s : State} {r : Response} {f : RespField}
    (hp : s.phase = .responding) (hr : s.resp = some r) (hv : respFieldValue r f = none) :
    runCommand (.readResp f) s = .fault (.readBottom (.respField f)) := by
  simp [runCommand, commandEnabled, runReadResp, readRespField, hp, hr, hv]

/-- An error response sets no field but STATUS (30_encoding.md R56). -/
theorem respFieldValue_of_error {r : Response} (hwf : responseWf r) (hst : r.status ≠ .ok)
    {f : RespField} (hf : f ≠ .status) : respFieldValue r f = none := by
  obtain ⟨status, kind, len, data, u32⟩ := r
  have hbottom : kind = none ∧ len = none ∧ data = none ∧ u32 = none := by
    cases status with
    | ok => exact absurd rfl hst
    | invalidKeyLength | illegalOperation => exact hwf
  obtain ⟨rfl, rfl, rfl, rfl⟩ := hbottom
  cases f with
  | status => exact absurd rfl hf
  | kind | len | data | u32 => rfl

/-- An OK response sets KIND, LEN and DATA, and U32 for the kinds 3 and 4 only (30_encoding.md R55). -/
theorem responseWf_ok {r : Response} (hwf : responseWf r) (hst : r.status = .ok) :
    ∃ k n d, r.kind = some k ∧ r.len = some n ∧ r.data = some d ∧
      (k = 0b011#3 ∨ k = 0b100#3 → ∃ v, r.u32 = some v) ∧
      (k ≠ 0b011#3 → k ≠ 0b100#3 → r.u32 = none) := by
  rw [responseWf, hst] at hwf
  split at hwf
  · rename_i k n d _ hkind hlen hdata
    refine ⟨k, n, d, hkind, hlen, hdata, ?_⟩
    obtain ⟨-, ⟨rfl, -, hnone⟩ | ⟨rfl, -, -, hnone⟩ | ⟨rfl, -, hnone⟩ | ⟨rfl, -, hsome⟩ |
      ⟨rfl, -, hsome⟩⟩ := hwf
    · exact ⟨fun h => absurd h (by decide), fun _ _ => hnone⟩
    · exact ⟨fun h => absurd h (by decide), fun _ _ => hnone⟩
    · exact ⟨fun h => absurd h (by decide), fun _ _ => hnone⟩
    · exact ⟨fun _ => Option.isSome_iff_exists.1 hsome, fun h _ => absurd rfl h⟩
    · exact ⟨fun _ => Option.isSome_iff_exists.1 hsome, fun _ h => absurd rfl h⟩
  · exact hwf.elim
  · exact absurd rfl ‹Status.ok = Status.ok → False›

/-- Settles O38: a read delivers what `respFieldValue` finds, and a well-formed response sets the fields of
its STATUS and KIND. -/
theorem readOfUnsetFieldFaults : Obligations.ReadOfUnsetFieldFaults := by
  refine fun s => ⟨fun f hp => runCommand_readResp_not_responding hp f,
    fun r hp hr hwf => ⟨?_, ?_, ?_⟩⟩
  · refine ⟨r.status.code.toNat, fun hst => ?_, fun hst => ?_, fun hst => ?_,
      runCommand_readResp_of_some hp hr rfl⟩ <;> rw [hst] <;> rfl
  · exact fun hst f hf => runCommand_readResp_of_none hp hr (respFieldValue_of_error hwf hst hf)
  · intro hst
    obtain ⟨k, n, d, hkind, hlen, hdata, hsome, hnone⟩ := responseWf_ok hwf hst
    refine ⟨k, n, d, hkind, hlen, hdata, ?_, ?_, ?_, fun hk => ?_, fun h3 h4 => ?_⟩
    · exact runCommand_readResp_of_some hp hr (by rw [respFieldValue, hkind, Option.map_some])
    · exact runCommand_readResp_of_some hp hr (by rw [respFieldValue, hlen, Option.map_some])
    · exact runCommand_readResp_of_some hp hr (by rw [respFieldValue, hdata, Option.map_some])
    · obtain ⟨v, hv⟩ := hsome hk
      exact ⟨v, hv, runCommand_readResp_of_some hp hr (by rw [respFieldValue, hv, Option.map_some])⟩
    · exact runCommand_readResp_of_none hp hr (by rw [respFieldValue, hnone h3 h4, Option.map_none])

/-! ### PERFORM completes -/

theorem performEnabled_of_next {s t : State} (h : perform s = .next t) : performEnabled s = true := by
  rw [performEnabled, h]

theorem passTurn_of_no_turn {s : State} (h : s.sched = []) : passTurn s = s := by
  rw [passTurn, h, List.tail_nil, ← h]

/-- Settles O31: two admitted views are read, so that PERFORM has its result, and the default turn is the
block's. -/
theorem admittedRequestCompletes : Obligations.AdmittedRequestCompletes := by
  intro s q i hp hq hi hk hkey hmsg
  obtain ⟨-, -, hkeyPtr, hkeyLen, hmsgPtr, hmsgLen⟩ := decode_ok hi
  rw [hkeyPtr] at hkey
  rw [hmsgPtr, hmsgLen] at hmsg
  obtain ⟨k, hkeyView⟩ := readView_ok_of_admitted hkey
  obtain ⟨m, hmsgView⟩ := readView_ok_of_admitted hmsg
  have hperform := perform_of_decode_ok hp hq hi
  rw [exec_of_views hp (hkeyLen ▸ hk) hkeyView hmsgView] at hperform
  have henabled := performEnabled_of_next hperform
  refine ⟨henabled, ⟨_, _, hperform, rfl, rfl, responseOf_status i _⟩, fun hs => ?_⟩
  rw [step_of_hostChoice_none (hostChoice_of_perform hs henabled) hp, passTurn_of_no_turn hs]

/-! ### Commands that wait -/

/-- What a host command leaves of the host's own record: the commands still to come, and but for RESET the
discarded SUBMITs. -/
theorem runCommand_streams_discarded {c : Command} {s t : State} (h : runCommand c s = .next t) :
    t.streams = s.streams ∧
      (t.discarded = s.discarded ∨ c = .reset ∧ t.discarded = discardedAfterReset s) := by
  obtain ⟨-, ht⟩ := runCommand_next h
  cases c with
  | reset => rw [ht]; exact ⟨rfl, .inr ⟨rfl, rfl⟩⟩
  | init => rw [ht]; exact ⟨initGate_streams s, .inl (initGate_discarded s)⟩
  | readSignals => rw [ht]; exact ⟨rfl, .inl rfl⟩
  | submit | write | withdraw =>
    obtain ⟨-, rfl⟩ := ht
    exact ⟨rfl, .inl rfl⟩
  | take | readResp =>
    obtain ⟨_, -, rfl⟩ := ht
    exact ⟨rfl, .inl rfl⟩

/-- A step takes one command off the sequence that moves, and leaves every other sequence. -/
theorem step_streams {s t : State} {k : Nat} (h : step s = .next t) (hk : hostChoice s ≠ some k) :
    t.streams[k]? = s.streams[k]? := by
  obtain ⟨j, c, hj, -, hc⟩ | ⟨-, -, hp⟩ | ⟨-, -, -, rfl⟩ := step_next h
  · obtain ⟨hstreams, -⟩ := runCommand_streams_discarded hc
    have hjk : j ≠ k := fun e => hk (e ▸ hj)
    rw [hstreams, dropCommand_streams, passTurn_streams, List.getElem?_modify_ne _ _ hjk]
  · obtain ⟨-, -, -, -, hstreams, -⟩ := perform_frame hp
    rw [hstreams, passTurn_streams]
  · rfl

/-- Settles O42: the sequence that moves has an enabled command, so it is another one. -/
theorem heldCommandWaits : Obligations.HeldCommandWaits := by
  intro s t k c hc hheld h
  have hk : hostChoice s ≠ some k := by
    intro hk
    obtain ⟨c', hc', henabled⟩ := hostChoice_some hk
    rw [hc] at hc'
    cases hc'
    rw [hheld] at henabled
    cases henabled
  exact ⟨hk, step_streams h hk⟩

theorem commandEnabled_submit_of_not_idle {s : State} (hp : s.phase ≠ .idle) (d : Descriptor) :
    commandEnabled s (.submit d) = false := by
  simp [commandEnabled, hp]

/-- Settles O43: the holds are the two enabling conditions, and INIT, PERFORM and TAKE end in a state that
meets one. -/
theorem holdsAndTheirLifting : Obligations.HoldsAndTheirLifting := by
  refine fun s d => ⟨fun hg => ?_, fun hp => ?_, fun hp => ?_, fun hg hp hcap => ?_, fun t h => ?_,
    fun hg t h => ?_⟩
  · exact commandEnabled_submit_of_not_ready (by simp [hg]) d
  · exact commandEnabled_submit_of_not_idle hp d
  · simp [commandEnabled, hp]
  · refine ⟨_, runCommand_init s, ?_⟩
    rw [initGate_of_capable hg hcap]
    exact commandEnabled_submit.2 ⟨rfl, hp⟩
  · obtain ⟨hphase, -⟩ := perform_frame h
    exact commandEnabled_take.2 hphase
  · obtain ⟨-, r, -, rfl⟩ := runCommand_next h
    exact commandEnabled_submit.2 ⟨hg, rfl⟩

/-! ### Views that are not read -/

theorem touchesReads_iff {s : State} {q : Request} {a n : Nat} (hp : s.phase ≠ .idle)
    (hq : s.req = some q) :
    touchesReads s a n = true ↔ ∃ x, a ≤ x ∧ x < a + n ∧ inReadViews q x := by
  have hreads : touchesReads s a n = (performReads q && touchesFlight s a n) := by
    rw [touchesReads, hq]
  rw [hreads, Bool.and_eq_true, touchesFlight_iff hp hq]
  constructor
  · rintro ⟨hr, x, hlo, hhi, hx⟩
    exact ⟨x, hlo, hhi, hr, hx⟩
  · rintro ⟨x, hlo, hhi, hr, hx⟩
    exact ⟨hr, x, hlo, hhi, hx⟩

/-- In flight a withdrawal is held exactly by an address that PERFORM reads (70_reset_and_hazards.md R118). -/
theorem commandEnabled_withdraw_eq_false {s : State} {q : Request} {a n : Nat} (hp : s.phase ≠ .idle)
    (hq : s.req = some q) :
    commandEnabled s (.withdraw a n) = false ↔ ∃ x, a ≤ x ∧ x < a + n ∧ inReadViews q x := by
  rw [commandEnabled, Bool.not_eq_false', touchesReads_iff hp hq]

/-- Settles O54: a request that PERFORM answers with an error has no address it reads, and with an empty
message every address it reads is in the key view. -/
theorem unreadViewsMayBeWithdrawn : Obligations.UnreadViewsMayBeWithdrawn := by
  intro s q a n hp hq
  have hheld := commandEnabled_withdraw_eq_false (a := a) (n := n) hp hq
  refine ⟨hheld, fun herror => ?_, fun hmsg hbeside => ?_⟩ <;> rw [← Bool.not_eq_false, hheld]
  · rintro ⟨x, -, -, hreads, -⟩
    obtain ⟨⟨i, hi⟩, hk⟩ := performReads_eq_true.1 hreads
    obtain hillegal | hlen := herror
    · exact hillegal i hi
    · exact hlen hk
  · rintro ⟨x, hlo, hhi, -, hkey | hmsg'⟩ <;> omega

/-! ### The end of a run -/

theorem runEnded_iff {s : State} :
    runEnded s = true ↔ s.phase = .idle ∧ (∀ k, nextCommand s k = none) ∧ s.discarded = 0 := by
  simp [runEnded, commandsDone_iff, and_assoc]

theorem streamEnabled_of_no_command {s : State} (h : ∀ k, nextCommand s k = none) (k : Nat) :
    streamEnabled s k = false := by
  rw [streamEnabled, h k]

theorem step_of_runEnded {s : State} (h : runEnded s = true) : step s = .next (passTurn s) := by
  obtain ⟨hp, hnone, -⟩ := runEnded_iff.1 h
  rw [step_of_idle_nobody hp (streamEnabled_of_no_command hnone), if_pos h]

/-- Settles O57: at the end of a run nobody can move, and the step passes the turn. -/
theorem endOfRunIsNeitherStuckNorFaulted : Obligations.EndOfRunIsNeitherStuckNorFaulted := by
  refine fun s => ⟨runEnded_iff, step_of_runEnded, fun hended t h => ?_, fun f h => ?_⟩
  · rw [step_of_runEnded hended] at h
    cases h
    exact ⟨hended, rfl⟩
  · by_contra hended
    rw [step_of_runEnded (by simpa using hended)] at h
    cases h

/-! ### Discarded SUBMITs -/

/-- A step leaves the record of discarded SUBMITs, or is a RESET in flight, which adds one. -/
theorem step_discarded {s t : State} (h : step s = .next t) :
    t.discarded = s.discarded ∨
      (∃ k, hostChoice s = some k ∧ nextCommand s k = some .reset ∧ s.phase ≠ .idle) ∧
        t.discarded = s.discarded + 1 := by
  obtain ⟨k, c, hk, hn, hc⟩ | ⟨-, -, hp⟩ | ⟨-, -, -, rfl⟩ := step_next h
  · obtain ⟨-, hsame | ⟨rfl, hreset⟩⟩ := runCommand_streams_discarded hc
    · exact .inl hsame
    · by_cases hp : s.phase = .idle
      · exact .inl (hreset.trans (discardedAfterReset_idle hp))
      · exact .inr ⟨⟨k, hk, hn, hp⟩, hreset.trans (discardedAfterReset_busy hp)⟩
  · obtain ⟨-, -, -, -, -, -, -, -, hdiscarded⟩ := perform_frame hp
    exact .inl hdiscarded
  · exact .inl rfl

theorem runEnded_of_discarded {s : State} (h : s.discarded ≠ 0) : runEnded s = false := by
  simp [runEnded, h]

theorem stuckReason_of_discarded {s : State} (hp : s.phase = .idle) (hnone : ∀ k, nextCommand s k = none) :
    stuckReason s = .stuckDiscarded := by
  have hwaits : submitWaits s = false := by
    by_contra hw
    obtain ⟨k, d, hk⟩ := submitWaits_iff.1 (by simpa using hw)
    rw [hnone k] at hk
    cases hk
  simp [stuckReason, hwaits, hp, commandsDone_iff.2 hnone]

/-- Settles O58: RESET runs `discardedAfterReset`, no other step touches the record, and a run with a
discarded SUBMIT and nothing left to do has not ended. -/
theorem discardedSubmitNeverEndsRun : Obligations.DiscardedSubmitNeverEndsRun := by
  refine ⟨fun s t h => ?_, fun s t h => ?_, fun s t h hne => ?_, fun s hp hnone hd => ?_⟩
  · cases h
    exact ⟨discardedAfterReset_busy, discardedAfterReset_idle⟩
  · have hle : s.discarded ≤ t.discarded := by
      obtain hsame | ⟨-, hmore⟩ := step_discarded h <;> omega
    exact ⟨hle, fun hd => runEnded_of_discarded (by omega)⟩
  · obtain hsame | ⟨hreset, -⟩ := step_discarded h
    · exact absurd hsame hne
    · exact hreset
  · rw [step_of_idle_nobody hp (streamEnabled_of_no_command hnone), runEnded_of_discarded hd,
      stuckReason_of_discarded hp hnone, if_neg Bool.false_ne_true]

end Sys2Proof.Machine
end
